-- ==== Sys2Proof/Word.lean ====
section
/-! DEFINITION. The word of the block and the fixed-size groups of words its rules speak of:
a vector of four lanes and a window of five words (00_scope.md R8, R12, R13). -/

namespace Sys2Proof

/-- A word: 32 bits, unsigned (00_scope.md R8 `XLEN`, R12). -/
abbrev Word := BitVec 32

/-- A lane number, 0 to 3 (R8 `NLANE`, R13). -/
abbrev Lane := Fin 4

/-- A slot number, 0 to 4: slot `q` is the word group `4q .. 4q+3` (10_state.md R24). An output slice
`d` of `OUT` is numbered the same way (R13). -/
abbrev Slot := Fin 5

/-- A vector of four words; field `xj` is lane `j` (00_scope.md R12, 20_memory.md R53). -/
structure Lanes where
  x0 : Word
  x1 : Word
  x2 : Word
  x3 : Word
  deriving DecidableEq, Repr

/-- The window of one lane, `s0` the oldest word and `s4` the newest (00_scope.md R13). -/
structure Window where
  s0 : Word
  s1 : Word
  s2 : Word
  s3 : Word
  s4 : Word
  deriving DecidableEq, Repr

end Sys2Proof
end

