-- ==== Sys2Proof/Config.lean ====
section
/-! DEFINITION. What an implementation fixes: the open parameters of 00_scope.md R9, and the shift counts
of R8. The parameters `RESET_W` and `RESET_OUT`, and the fate of an abandoned command's response,
are free values: constants with no body, so that nothing can be proved of what they hold. -/

namespace Sys2Proof

/-- `SH_A`, the right shift applied to window word 0 (R8). -/
abbrev Config.shA : Nat := 7

/-- `SH_B`, the left shift applied to window word 4 (R8). -/
abbrev Config.shB : Nat := 6

/-- `SH_C`, the left shift applied to `t` (R8). -/
abbrev Config.shC : Nat := 13

/-- `HAS_PHASE` of the block that `State.reset` is (R9: default of the spec, true). The block built without
the phase unit is a state too, `State.atReset false` (log 4). -/
def Config.hasPhase : Bool := true

/-- `RESET_W` (R9, R40): what `W[i]`, `i` in 0 to 19, holds after reset number `n` since power-on.
Free value, DESIGN CHOICE of its form: log 3. -/
opaque Config.resetW (n i : Nat) : Word

/-- `RESET_OUT` (R9, R40): what `OUT[i]`, `i` in 0 to 19, holds after reset number `n` since power-on.
Free value, DESIGN CHOICE of its form: log 3. -/
opaque Config.resetOut (n i : Nat) : Word

/-- Whether the response of the command that reset number `n` abandons is delivered all the same: "may or may not
have been delivered" (70_reset_and_hazards.md R231). Free value, DESIGN CHOICE of its form: log 8. -/
opaque Config.abandonedAnswered (n : Nat) : Bool

end Sys2Proof
end

