-- ==== Sys2Proof/Syntax.lean ====
section
/-! DEFINITION. The command set XS32-CMD, version 1: mnemonics, formats, commands with their operands,
the reasons a command word is illegal, and the assembler's pseudo-commands (30_encoding.md). -/

namespace Sys2Proof

/-- The eight rows of the opcode map (30_encoding.md R74). -/
inductive Mnemonic where
  | wrs | rds | rdo | rdst | stepS | stepR | stepU | stepP
  deriving DecidableEq, Repr

/-- The three formats (30_encoding.md R72): `Z` no operand, `I` an index, `D` an index and a data word. -/
inductive Format where
  | Z | I | D
  deriving DecidableEq, Repr

/-- A command with its operands (30_encoding.md R73, R74). `idx` and `d` are the 8-bit index field used as
is; a value outside the command's range is no encoding error. -/
inductive Instr where
  /-- `WRS idx, data`: write one state word (R180). -/
  | wrs (idx : BitVec 8) (data : Word)
  /-- `RDS idx`: read one state word (R181). -/
  | rds (idx : BitVec 8)
  /-- `RDO idx`: read one output word (R182). -/
  | rdo (idx : BitVec 8)
  /-- `RDST`: read the status word (R183). -/
  | rdst
  /-- `STEP.S`: the scalar step (R109). -/
  | stepS
  /-- `STEP.R`: the ring-buffer vector step (R121). -/
  | stepR
  /-- `STEP.U`: the unrolled vector step (R146). -/
  | stepU
  /-- `STEP.P d`: the phase the cursor designates, outputs to slice `d` (R166). -/
  | stepP (d : BitVec 8)
  deriving DecidableEq, Repr

/-- Which check of 30_encoding.md R75 makes a command word illegal. The machine does not record it: every
one of them is the fault `ILLEGAL_CMD` (R76). The names are the model's (DESIGN CHOICE, log 12). -/
inductive Illegal where
  /-- Step 1: `rsv` is not 0. -/
  | rsvNonzero
  /-- Step 2: `op` is none of the eight values. -/
  | unknownOp
  /-- Step 3: format `Z` and `idx` is not 0. -/
  | idxNonzero
  /-- Step 4: format `Z` or `I` and `data` is not 0. -/
  | dataNonzero
  /-- Step 5: `STEP.P` on a block built without the phase unit. -/
  | phaseUnitAbsent
  deriving DecidableEq, Repr

/-- The assembler's pseudo-commands (30_encoding.md R84). -/
inductive Pseudo where
  /-- `SEED.S a0, …, a4`: load the scalar window. -/
  | seedS (a : Window)
  /-- `SEED.L j, a0, …, a4`: load lane `j`, word `a_m` into slot `m`. -/
  | seedL (j : Lane) (a : Window)
  /-- `ROT c`: set the rotation counter. -/
  | rot (c : Word)
  /-- `STEP.P5`: five phases into the five slices of `OUT`. -/
  | stepP5
  /-- `RDO4 d`: read one output slice. -/
  | rdo4 (d : Slot)
  deriving DecidableEq, Repr

/-- The row of the opcode map a command belongs to. -/
def Instr.mnemonic : Instr → Mnemonic
  | .wrs _ _ => .wrs
  | .rds _ => .rds
  | .rdo _ => .rdo
  | .rdst => .rdst
  | .stepS => .stepS
  | .stepR => .stepR
  | .stepU => .stepU
  | .stepP _ => .stepP

end Sys2Proof
end

