-- ==== Sys2Proof/Decode.lean ====
section
/-! DEFINITION. The decoder, total on every 64-bit word and rejecting by name (30_encoding.md R71 to R75),
and after it the encoder, written from the same tables. -/

namespace Sys2Proof

/-- `op`, bits 63:56 of the command word (R71). -/
def opField (c : BitVec 64) : BitVec 8 := c.extractLsb' 56 8

/-- `rsv`, bits 55:40 (R71). -/
def rsvField (c : BitVec 64) : BitVec 16 := c.extractLsb' 40 16

/-- `idx`, bits 39:32 (R71). -/
def idxField (c : BitVec 64) : BitVec 8 := c.extractLsb' 32 8

/-- `data`, bits 31:0 (R71). -/
def dataField (c : BitVec 64) : Word := c.extractLsb' 0 32

/-- The opcode of each row of the opcode map (R74). -/
def Mnemonic.opcode : Mnemonic → BitVec 8
  | .wrs => 0x01#8
  | .rds => 0x02#8
  | .rdo => 0x03#8
  | .rdst => 0x04#8
  | .stepS => 0x10#8
  | .stepR => 0x11#8
  | .stepU => 0x12#8
  | .stepP => 0x13#8

/-- The format of each row of the opcode map (R72, R74). -/
def Mnemonic.format : Mnemonic → Format
  | .wrs => .D
  | .rds => .I
  | .rdo => .I
  | .rdst => .Z
  | .stepS => .Z
  | .stepR => .Z
  | .stepU => .Z
  | .stepP => .I

/-- The rows of the opcode map, in its order (R74). -/
def Mnemonic.all : List Mnemonic := [.wrs, .rds, .rdo, .rdst, .stepS, .stepR, .stepU, .stepP]

/-- Looking `op` up in the opcode map (R75 step 2). -/
def Mnemonic.ofOpcode (op : BitVec 8) : Option Mnemonic := Mnemonic.all.find? (fun m => m.opcode == op)

/-- The command of a row with the operands `idx` and `data` (R75 step 6). -/
def Mnemonic.command (m : Mnemonic) (idx : BitVec 8) (data : Word) : Instr :=
  match m with
  | .wrs => .wrs idx data
  | .rds => .rds idx
  | .rdo => .rdo idx
  | .rdst => .rdst
  | .stepS => .stepS
  | .stepR => .stepR
  | .stepU => .stepU
  | .stepP => .stepP idx

/-- Decoding, the six steps of R75 in order. `hasPhase` is the parameter `HAS_PHASE` of the block; nothing
else than it and the word decides (R77). -/
def decode (hasPhase : Bool) (c : BitVec 64) : Except Illegal Instr :=
  if rsvField c ≠ 0#16 then .error .rsvNonzero
  else
    match Mnemonic.ofOpcode (opField c) with
    | none => .error .unknownOp
    | some m =>
      if m.format = .Z ∧ idxField c ≠ 0#8 then .error .idxNonzero
      else if m.format ≠ .D ∧ dataField c ≠ 0#32 then .error .dataNonzero
      else if m = .stepP ∧ hasPhase = false then .error .phaseUnitAbsent
      else .ok (m.command (idxField c) (dataField c))

/-- The index operand a command carries; 0 in the commands that have none (R71). -/
def Instr.idx : Instr → BitVec 8
  | .wrs idx _ => idx
  | .rds idx => idx
  | .rdo idx => idx
  | .rdst => 0#8
  | .stepS => 0#8
  | .stepR => 0#8
  | .stepU => 0#8
  | .stepP d => d

/-- The data operand a command carries; 0 in every command but `WRS` (R71). -/
def Instr.data : Instr → Word
  | .wrs _ data => data
  | .rds _ => 0#32
  | .rdo _ => 0#32
  | .rdst => 0#32
  | .stepS => 0#32
  | .stepR => 0#32
  | .stepU => 0#32
  | .stepP _ => 0#32

/-- The command word `{op, rsv, idx, data}` with `rsv` 0 (R71). -/
def encode (i : Instr) : BitVec 64 := i.mnemonic.opcode ++ 0#16 ++ i.idx ++ i.data

/-- The bits a row of the opcode map fixes, and their values: a word is a command of the row exactly when
`c &&& rowMask = rowMatch` (R74). -/
def Mnemonic.rowMask (m : Mnemonic) : BitVec 64 :=
  match m.format with
  | .Z => 0xFFFFFFFFFFFFFFFF#64
  | .I => 0xFFFFFF00FFFFFFFF#64
  | .D => 0xFFFFFF0000000000#64

/-- The `match` column of the opcode map (R74). -/
def Mnemonic.rowMatch : Mnemonic → BitVec 64
  | .wrs => 0x0100000000000000#64
  | .rds => 0x0200000000000000#64
  | .rdo => 0x0300000000000000#64
  | .rdst => 0x0400000000000000#64
  | .stepS => 0x1000000000000000#64
  | .stepR => 0x1100000000000000#64
  | .stepU => 0x1200000000000000#64
  | .stepP => 0x1300000000000000#64

/-- The command word whose low `nbits` bits are `w` and whose other bits are 0: every command is one 64-bit
word (R71), numbered as spec/opcode_table.json numbers it. -/
def tableCommand (nbits w : Nat) : BitVec 64 := BitVec.ofNat 64 (w % 2 ^ nbits)

/-- The command the decoder reads from a word given as spec/opcode_table.json numbers its bits, on the
block that `State.reset` is. -/
def decodeTableWord (nbits w : Nat) : Option Instr :=
  (decode Config.hasPhase (tableCommand nbits w)).toOption

end Sys2Proof
end

