-- ==== Sys2Proof/Machine/State.lean ====
section
/-! DEFINITION. The state of the block (10_state.md R20) with the command port, as plain data; the reasons
a step can stop; the state after reset (10_state.md R40). -/

namespace Sys2Proof.Machine

/-- The Dispatch Cursor's five values (10_state.md R32); also the number of a round (00_scope.md R13). The
encodings 5, 6, 7 are never reached and are not values here (93_implementation_defined.md U11; log 5). -/
inductive Phase where
  | phase0 | phase1 | phase2 | phase3 | phase4
  deriving DecidableEq, Repr

/-- The three faults of the block (60_exceptions.md R201), codes 1, 2, 3. They are not stops of the
machine: taking one is a next state (R206; log 7). -/
inductive CmdFault where
  /-- Code 1: the command word does not decode (R202). -/
  | illegalCmd
  /-- Code 2: the index operand is outside the command's range (R203). -/
  | badIndex
  /-- Code 3: `STEP.R` found `W[20]` outside 0, 4, 8, 12, 16 (R204). -/
  | badRot
  deriving DecidableEq, Repr

/-- A response of the command port, `rsp(e, d)` (30_encoding.md R82). -/
structure Response where
  e : Bool
  d : Word
  deriving DecidableEq, Repr

/-- What the host can do to the block (70_reset_and_hazards.md R249). -/
inductive HostEvent where
  /-- Present a command word and wait for its response (30_encoding.md R70). -/
  | command (c : BitVec 64)
  /-- Assert reset with no command in progress (R230). -/
  | reset
  /-- Present a command word and assert reset while it is being executed (R231). -/
  | resetDuring (c : BitVec 64)
  deriving DecidableEq, Repr

/-- The state of the block and of its command port. -/
structure State where
  /-- `W[0..20]`, the state word file; entry 20 is the rotation counter (R20, R21, R26). -/
  w : Vector Word 21
  /-- `OUT[0..19]`, the output buffer (R20, R31). -/
  out : Vector Word 20
  /-- `PH`, the Dispatch Cursor; `none` on a block built without the phase unit (R20, R32; log 4). -/
  ph : Option Phase
  /-- `ERR`, the sticky fault flag (R20, R34). -/
  err : Bool
  /-- `CAUSE`, the first fault since reset; `none` is code 0, NONE (R20, R34; log 5). -/
  cause : Option CmdFault
  /-- The MODEL's own: the events the host presents next, oldest first (R70, R249; log 1). -/
  port : List HostEvent
  /-- The MODEL's own: the responses returned so far, oldest first (R70, R82; log 2). -/
  responses : List Response
  /-- The MODEL's own: resets since power-on, which selects the free reset values (R40; log 3). -/
  resets : Nat
  deriving DecidableEq, Repr

/-- Reasons the machine stops with a fault. There is none: every command has an effect the spec gives, its
own, the entry into one of the three faults of `CmdFault`, or a refusal that answers `rsp(1, 0)`
(60_exceptions.md R206, R208; log 7). Safe: nothing stops. -/
inductive Fault : Type
  deriving DecidableEq, Repr

/-- Reasons the model has no meaning for a step. -/
inductive Refusal where
  /-- Raised by `exec`'s arm of an instruction that has no meaning yet; no arm is one now. Safe: the model
  stops where the hardware goes on. -/
  | notModelled (mnemonic : String)
  deriving DecidableEq, Repr

/-- `HAS_PHASE` of the block this state is of: the phase unit is there exactly when `PH` is (10_state.md
R20, R32; log 4). -/
def State.hasPhase (s : State) : Bool := s.ph.isSome

/-- `W` after reset number `n`: 20 unspecified words, then the rotation counter at 0 (R40). -/
def resetWords (n : Nat) : Vector Word 21 :=
  #v[Config.resetW n 0, Config.resetW n 1, Config.resetW n 2, Config.resetW n 3, Config.resetW n 4,
     Config.resetW n 5, Config.resetW n 6, Config.resetW n 7, Config.resetW n 8, Config.resetW n 9,
     Config.resetW n 10, Config.resetW n 11, Config.resetW n 12, Config.resetW n 13, Config.resetW n 14,
     Config.resetW n 15, Config.resetW n 16, Config.resetW n 17, Config.resetW n 18, Config.resetW n 19,
     0#32]

/-- `OUT` after reset number `n`: 20 unspecified words (R40). -/
def resetOutputs (n : Nat) : Vector Word 20 :=
  #v[Config.resetOut n 0, Config.resetOut n 1, Config.resetOut n 2, Config.resetOut n 3,
     Config.resetOut n 4, Config.resetOut n 5, Config.resetOut n 6, Config.resetOut n 7,
     Config.resetOut n 8, Config.resetOut n 9, Config.resetOut n 10, Config.resetOut n 11,
     Config.resetOut n 12, Config.resetOut n 13, Config.resetOut n 14, Config.resetOut n 15,
     Config.resetOut n 16, Config.resetOut n 17, Config.resetOut n 18, Config.resetOut n 19]

/-- The reset state (10_state.md R40, 70_reset_and_hazards.md R230) of a block with or without the phase
unit, after reset number `n`, with what its port holds. -/
def State.atReset (hasPhase : Bool) (n : Nat) (port : List HostEvent) (responses : List Response) : State where
  w := resetWords n
  out := resetOutputs n
  ph := if hasPhase then some .phase0 else none
  err := false
  cause := none
  port := port
  responses := responses
  resets := n

/-- The block right after power-on, nothing presented at its port. -/
def State.reset : State := State.atReset Config.hasPhase 0 [] []

end Sys2Proof.Machine
end

