-- ==== Sys2Proof/Machine/Ops.lean ====
section
/-! DEFINITION. The named operations over the state: reading and writing the two files by word and by slot
(20_memory.md R53), lane-wise vectors (41_ring_vector.md R126), the response, taking a fault, refusing, and
reset, which is the only return from a fault (60_exceptions.md R206 to R210). -/

namespace Sys2Proof

/-- Element `j` of a vector is lane `j` (00_scope.md R12). -/
def Lanes.lane (x : Lanes) (j : Lane) : Word :=
  match j with
  | 0 => x.x0
  | 1 => x.x1
  | 2 => x.x2
  | 3 => x.x3

/-- The vector whose lane `j` is `f j`. -/
def Lanes.ofFn (f : Lane → Word) : Lanes := ⟨f 0, f 1, f 2, f 3⟩

/-- A one-operand operation in each lane separately (R126). -/
def Lanes.map (f : Word → Word) (x : Lanes) : Lanes := Lanes.ofFn fun j => f (x.lane j)

/-- A two-operand operation in each lane separately (R126). -/
def Lanes.map2 (f : Word → Word → Word) (x y : Lanes) : Lanes := Lanes.ofFn fun j => f (x.lane j) (y.lane j)

/-- Byte `n` of a word, `word[8n+7 : 8n]`: the byte view of a wrapper (20_memory.md R56). -/
def wordByte (v : Word) (n : Fin 4) : BitVec 8 := v.extractLsb' (8 * n.val) 8

/-- The word with the given bytes, little endian (20_memory.md R56). -/
def wordOfBytes (b : Fin 4 → BitVec 8) : Word := b 3 ++ b 2 ++ b 1 ++ b 0

/-- The 128-bit view of a vector: lane `j` is bits `32j+31` to `32j` (20_memory.md R56). -/
def Lanes.toBits (x : Lanes) : BitVec 128 := x.x3 ++ x.x2 ++ x.x1 ++ x.x0

/-- The vector a 128-bit number is, lane `j` its bits `32j+31` to `32j` (20_memory.md R56). -/
def Lanes.ofBits (b : BitVec 128) : Lanes := Lanes.ofFn fun j => b.extractLsb' (32 * j.val) 32

namespace Machine

/-- The `W` index of lane `j` of slot `q`: `4q + j` (10_state.md R24). -/
def wIndex (q : Slot) (j : Lane) : Fin 21 := ⟨4 * q.val + j.val, by omega⟩

/-- The `OUT` index of lane `j` of slice `d`: `4d + j` (20_memory.md R51). -/
def outIndex (d : Slot) (j : Lane) : Fin 20 := ⟨4 * d.val + j.val, by omega⟩

/-- The `W` index of the rotation counter (10_state.md R26). -/
def rotIndex : Fin 21 := 20

/-- `W[i]` (00_scope.md R12). -/
def State.readW (s : State) (i : Fin 21) : Word := s.w[i.val]

/-- `W[i] <- v`. -/
def State.writeW (s : State) (i : Fin 21) (v : Word) : State := { s with w := s.w.set i.val v }

/-- `OUT[i]`. -/
def State.readOut (s : State) (i : Fin 20) : Word := s.out[i.val]

/-- `OUT[i] <- v`. -/
def State.writeOut (s : State) (i : Fin 20) (v : Word) : State := { s with out := s.out.set i.val v }

/-- `VLoad(4q)`: the four words of slot `q` (20_memory.md R53, R54). -/
def State.vload (s : State) (q : Slot) : Lanes := Lanes.ofFn fun j => s.readW (wIndex q j)

/-- `VStore(4q, x)` (20_memory.md R53, R54). -/
def State.vstore (s : State) (q : Slot) (x : Lanes) : State :=
  (((s.writeW (wIndex q 0) (x.lane 0)).writeW (wIndex q 1) (x.lane 1)).writeW (wIndex q 2) (x.lane 2)).writeW
    (wIndex q 3) (x.lane 3)

/-- `VOut(4d, x)` (20_memory.md R53, R54). -/
def State.vout (s : State) (d : Slot) (x : Lanes) : State :=
  (((s.writeOut (outIndex d 0) (x.lane 0)).writeOut (outIndex d 1) (x.lane 1)).writeOut (outIndex d 2)
    (x.lane 2)).writeOut (outIndex d 3) (x.lane 3)

/-- `rsp(e, d)`: the command's one response (30_encoding.md R82). -/
def State.respond (s : State) (e : Bool) (d : Word) : State := { s with responses := s.responses ++ [⟨e, d⟩] }

/-- The number of a phase, 0 to 4 (10_state.md R32). -/
def Phase.number : Phase → Slot
  | .phase0 => 0
  | .phase1 => 1
  | .phase2 => 2
  | .phase3 => 3
  | .phase4 => 4

/-- The phase of a number. -/
def Phase.ofNumber (k : Slot) : Phase :=
  match k with
  | 0 => .phase0
  | 1 => .phase1
  | 2 => .phase2
  | 3 => .phase3
  | 4 => .phase4

/-- `(k + 1) mod 5` (43_phase_dispatch.md R166). -/
def Phase.next : Phase → Phase
  | .phase0 => .phase1
  | .phase1 => .phase2
  | .phase2 => .phase3
  | .phase3 => .phase4
  | .phase4 => .phase0

/-- `PH <- k` (00_scope.md R12). -/
def State.setPh (s : State) (k : Phase) : State := { s with ph := some k }

/-- What a fault records: `ERR` and `CAUSE`, and only if no fault is recorded yet (60_exceptions.md R206,
R210). -/
def State.recordFault (s : State) (f : CmdFault) : State :=
  if s.err then s else { s with err := true, cause := some f }

/-- `raise Fault(f)`: taking a fault (60_exceptions.md R206, R207). `W`, `OUT` and `PH` are unchanged; there
is no pc to save and no handler to go to. -/
def raise (f : CmdFault) (s : State) : State := (s.recordFault f).respond true 0#32

/-- Refusal of a state-changing command while `ERR = 1`: nothing changes, `rsp(1, 0)` (60_exceptions.md
R208). -/
def refuse (s : State) : State := s.respond true 0#32

/-- The reset input (70_reset_and_hazards.md R230 to R232), the only return from a fault (60_exceptions.md
R209). `W[0..19]` and `OUT` take new unspecified values; whether the phase unit is built does not change; what
the host has yet to present and the responses it has had are the host's (log 8). -/
def State.assertReset (s : State) : State := State.atReset s.hasPhase (s.resets + 1) s.port s.responses

/-- The window a lane has when slot `q` holds logical position 0: position `m` is slot `(q + m) mod 5`
(10_state.md R25, R27). -/
def State.window (s : State) (q : Slot) (j : Lane) : Window :=
  ⟨s.readW (wIndex q j), s.readW (wIndex (q + 1) j), s.readW (wIndex (q + 2) j), s.readW (wIndex (q + 3) j),
    s.readW (wIndex (q + 4) j)⟩

/-- The scalar window `W[0..4]` (10_state.md R23). -/
def State.scalarWindow (s : State) : Window :=
  ⟨s.readW 0, s.readW 1, s.readW 2, s.readW 3, s.readW 4⟩

/-- Writing the scalar window back (10_state.md R23). -/
def State.writeScalarWindow (s : State) (n : Window) : State :=
  ((((s.writeW 0 n.s0).writeW 1 n.s1).writeW 2 n.s2).writeW 3 n.s3).writeW 4 n.s4

end Machine

end Sys2Proof
end

