-- ==== Sys2Proof/Machine/Flags.lean ====
section
/-! DEFINITION. The status word (10_state.md R34, R35). The block has no arithmetic flags: no step writes a
flag as a side effect (R34). -/

namespace Sys2Proof.Machine

/-- The code of `CAUSE` (10_state.md R34, 60_exceptions.md R201). -/
def causeCode : Option CmdFault → BitVec 3
  | none => 0#3
  | some .illegalCmd => 1#3
  | some .badIndex => 2#3
  | some .badRot => 3#3

/-- `PH[2:0]` as read in `STATUS`; 0 when there is no phase unit (10_state.md R32, R35). -/
def phCode : Option Phase → BitVec 3
  | none => 0#3
  | some k => BitVec.ofNat 3 k.number.val

/-- `STATUS = zext_32({HASPH, PH[2:0], CAUSE[2:0], ERR})` (10_state.md R35). -/
def statusWord (s : State) : Word :=
  (BitVec.ofBool s.hasPhase ++ phCode s.ph ++ causeCode s.cause ++ BitVec.ofBool s.err : BitVec 8).setWidth 32

end Sys2Proof.Machine
end

