-- ==== Sys2Proof/Machine/Operands.lean ====
section
/-! DEFINITION. The operand forms: the index operand against each command's range (30_encoding.md R73,
20_memory.md R52), word indices as slots (R54), and the ring step's bases (41_ring_vector.md R121). -/

namespace Sys2Proof.Machine

/-- The `W` index operand of `WRS` and `RDS`; `none` outside 0 to 20 (R73). -/
def wOperand (idx : BitVec 8) : Option (Fin 21) :=
  if h : idx.toNat ≤ 20 then some ⟨idx.toNat, by omega⟩ else none

/-- The `OUT` index operand of `RDO`; `none` outside 0 to 19 (R73). -/
def outOperand (idx : BitVec 8) : Option (Fin 20) :=
  if h : idx.toNat ≤ 19 then some ⟨idx.toNat, by omega⟩ else none

/-- The slice operand of `STEP.P`; `none` outside 0 to 4 (R73). -/
def sliceOperand (d : BitVec 8) : Option Slot :=
  if h : d.toNat ≤ 4 then some ⟨d.toNat, by omega⟩ else none

/-- The slot a vector access at word index `b` covers: `b` is a multiple of 4 from 0 to 16, and no other
index is a vector access at all (20_memory.md R54, R55). -/
def slotAt (b : Nat) : Option Slot :=
  if h : b % 4 = 0 ∧ b ≤ 16 then some ⟨b / 4, by omega⟩ else none

/-- The three slots a ring step uses (41_ring_vector.md R121, R123). -/
structure RingBases where
  base0 : Slot
  base1 : Slot
  base4 : Slot
  deriving DecidableEq, Repr

/-- `base1` of a ring step: `if c1 >= 12 then c1 - 12 else c1 + 8`, with `c1 = c + 4` before the wrap (R121). -/
def ringBase1 (c : Nat) : Nat := if c + 4 ≥ 12 then c + 4 - 12 else c + 4 + 8

/-- `base0` of a ring step: `if c1 >= 20 then c1 - 20 else c1` (R121). -/
def ringBase0 (c : Nat) : Nat := if c + 4 ≥ 20 then c + 4 - 20 else c + 4

/-- The bases a counter gives; `none` exactly when the counter is not one of 0, 4, 8, 12, 16, the case of
`BAD_ROT` (41_ring_vector.md R121, R124). The counter is the whole word: not masked, not wrapped. -/
def ringBases (counter : Word) : Option RingBases :=
  match slotAt counter.toNat, slotAt (ringBase0 counter.toNat), slotAt (ringBase1 counter.toNat) with
  | some base4, some base0, some base1 => some ⟨base0, base1, base4⟩
  | _, _, _ => none

/-- The word stored in `W[20]`: the base index of the slot (R121 step 3). -/
def slotCounter (q : Slot) : Word := BitVec.ofNat 32 (4 * q.val)

end Sys2Proof.Machine
end

