-- ==== Sys2Proof/Machine/HostAccess.lean ====
section
/-! DEFINITION. The host access commands (44_host_access.md R180 to R184). The order of checks is that of
60_exceptions.md R205: refusal, then the index. -/

namespace Sys2Proof.Machine

/-- `WRS idx, data` (R180). -/
def execWrs (idx : BitVec 8) (data : Word) (s : State) : Host.Outcome State Fault Refusal :=
  if s.err then .next (refuse s)
  else
    match wOperand idx with
    | none => .next (raise .badIndex s)
    | some i => .next ((s.writeW i data).respond false 0#32)

/-- `RDS idx` (R181): not refused while `ERR = 1`. -/
def execRds (idx : BitVec 8) (s : State) : Host.Outcome State Fault Refusal :=
  match wOperand idx with
  | none => .next (raise .badIndex s)
  | some i => .next (s.respond false (s.readW i))

/-- `RDO idx` (R182): not refused while `ERR = 1`. -/
def execRdo (idx : BitVec 8) (s : State) : Host.Outcome State Fault Refusal :=
  match outOperand idx with
  | none => .next (raise .badIndex s)
  | some i => .next (s.respond false (s.readOut i))

/-- `RDST` (R183): never refused, no fault of its own. -/
def execRdst (s : State) : Host.Outcome State Fault Refusal := .next (s.respond false (statusWord s))

end Sys2Proof.Machine
end

