-- ==== Sys2Proof/Machine/Recurrence.lean ====
section
/-! DEFINITION. The recurrence: the three word functions and the lane step (40_recurrence_scalar.md R100 to
R106). All arithmetic is on unsigned 32-bit words and wraps; the right shift fills with zeros. -/

namespace Sys2Proof.Machine

/-- `XS_T(a) = a ^ (a >> 7)`, a logical shift (R100, R106). -/
def xsT (a : Word) : Word := a ^^^ (a >>> Config.shA)

/-- `XS_V(v, t) = (v ^ (v << 6)) ^ (t ^ (t << 13))` (R101). -/
def xsV (v t : Word) : Word := (v ^^^ (v <<< Config.shB)) ^^^ (t ^^^ (t <<< Config.shC))

/-- `XS_OUT(y, v) = ((y + y + 1) * v) mod 2^32` (R102). -/
def xsOut (y v : Word) : Word := (y + y + 1#32) * v

/-- `LaneStep`: the new window and the output word (R103). -/
def laneStep (s : Window) : Window × Word :=
  let t := xsT s.s0
  let v := xsV s.s4 t
  (⟨s.s1, s.s2, s.s3, s.s4, v⟩, xsOut s.s2 v)

/-- The window after `n` lane steps. -/
def laneSteps : Nat → Window → Window
  | 0, a => a
  | n + 1, a => laneSteps n (laneStep a).1

/-- The output of lane step number `n + 1` from a window: the scalar stream (40_recurrence_scalar.md R103,
R104). -/
def laneOutput (n : Nat) (a : Window) : Word := (laneStep (laneSteps n a)).2

end Sys2Proof.Machine
end

