-- ==== Sys2Proof/Machine/Rounds.lean ====
section
/-! DEFINITION. The round operation shared by the vector commands (42_unrolled_vector.md R140 to R144). -/

namespace Sys2Proof.Machine

/-- A row of the round table, as slots: a slot `q` stands for the word offset `4q` (42_unrolled_vector.md
R141). -/
structure RoundRow where
  tOff : Slot
  s4Off : Slot
  s1Off : Slot
  stOff : Slot
  deriving DecidableEq, Repr

/-- The round table `RT`, the offsets `(0,16,8,0)`, `(4,0,12,4)`, `(8,4,16,8)`, `(12,8,0,12)`, `(16,12,4,16)`
divided by 4 (R141). -/
def roundTable : Phase → RoundRow
  | .phase0 => ⟨0, 4, 2, 0⟩
  | .phase1 => ⟨1, 0, 3, 1⟩
  | .phase2 => ⟨2, 1, 4, 2⟩
  | .phase3 => ⟨3, 2, 0, 3⟩
  | .phase4 => ⟨4, 3, 1, 4⟩

/-- The part every vector step has in common: three slots loaded, the recurrence in each lane, the new `s4`
stored, the outputs written to slice `d` (41_ring_vector.md R121 steps 4 to 7, 42_unrolled_vector.md R140). All
loads precede the store (20_memory.md R60). -/
def vectorStep (s : State) (row : RoundRow) (d : Slot) : State :=
  let t := (s.vload row.tOff).map xsT
  let v := Lanes.map2 xsV (s.vload row.s4Off) t
  let y := s.vload row.s1Off
  (s.vstore row.stOff v).vout d (Lanes.map2 xsOut y v)

/-- `ROUND(k, d)` (42_unrolled_vector.md R140). -/
def roundOp (k : Phase) (d : Slot) (s : State) : State := vectorStep s (roundTable k) d

end Sys2Proof.Machine
end

