-- ==== Sys2Proof/Machine/PhaseDispatch.lean ====
section
/-! DEFINITION. The phase operations and the step that runs the one the cursor designates
(43_phase_dispatch.md R160 to R168, R173). -/

namespace Sys2Proof.Machine

/-- `PHASE0(d)`: `ROUND(0, d)`, then `PH <- 1` (R161). -/
def phaseOp0 (d : Slot) (s : State) : State := (roundOp .phase0 d s).setPh .phase1

/-- `PHASE1(d)`: `ROUND(1, d)`, then `PH <- 2` (R162). -/
def phaseOp1 (d : Slot) (s : State) : State := (roundOp .phase1 d s).setPh .phase2

/-- `PHASE2(d)`: `ROUND(2, d)`, then `PH <- 3` (R163). -/
def phaseOp2 (d : Slot) (s : State) : State := (roundOp .phase2 d s).setPh .phase3

/-- `PHASE3(d)`: `ROUND(3, d)`, then `PH <- 4` (R164). -/
def phaseOp3 (d : Slot) (s : State) : State := (roundOp .phase3 d s).setPh .phase4

/-- `PHASE4(d)`: `ROUND(4, d)`, then `PH <- 0`, the wrap (R165). -/
def phaseOp4 (d : Slot) (s : State) : State := (roundOp .phase4 d s).setPh .phase0

/-- The dispatch: the operation the cursor's value selects (R167). -/
def runPhase (k : Phase) (d : Slot) (s : State) : State :=
  match k with
  | .phase0 => phaseOp0 d s
  | .phase1 => phaseOp1 d s
  | .phase2 => phaseOp2 d s
  | .phase3 => phaseOp3 d s
  | .phase4 => phaseOp4 d s

/-- `STEP.P d` (R166). On a block without the phase unit it is an illegal command, which is checked before
anything else (R173, 60_exceptions.md R205; log 4). -/
def execStepP (d : BitVec 8) (s : State) : Host.Outcome State Fault Refusal :=
  match s.ph with
  | none => .next (raise .illegalCmd s)
  | some k =>
    if s.err then .next (refuse s)
    else
      match sliceOperand d with
      | none => .next (raise .badIndex s)
      | some q => .next ((runPhase k q s).respond false 0#32)

end Sys2Proof.Machine
end

