-- ==== Sys2Proof/Machine/Ring.lean ====
section
/-! DEFINITION. The ring-buffer vector step (41_ring_vector.md R121 to R124). -/

namespace Sys2Proof.Machine

/-- `STEP.R` (R121): refusal, then the counter check (R124, 60_exceptions.md R205), then one vector step on the
slots the counter gives, outputs to `OUT[0..3]`. -/
def execStepR (s : State) : Host.Outcome State Fault Refusal :=
  if s.err then .next (refuse s)
  else
    match ringBases (s.readW rotIndex) with
    | none => .next (raise .badRot s)
    | some b =>
      let s1 := s.writeW rotIndex (slotCounter b.base0)
      .next ((vectorStep s1 ⟨b.base0, b.base4, b.base1, b.base0⟩ 0).respond false 0#32)

end Sys2Proof.Machine
end

