-- ==== Sys2Proof/Machine/Scalar.lean ====
section
/-! DEFINITION. The scalar step (40_recurrence_scalar.md R109). -/

namespace Sys2Proof.Machine

/-- `STEP.S` (R109): the output goes to `OUT[0]` and to the response. -/
def execStepS (s : State) : Host.Outcome State Fault Refusal :=
  if s.err then .next (refuse s)
  else
    let (n, out) := laneStep s.scalarWindow
    .next (((s.writeScalarWindow n).writeOut 0 out).respond false out)

end Sys2Proof.Machine
end

