-- ==== Sys2Proof/Machine/Unrolled.lean ====
section
/-! DEFINITION. The unrolled vector step (42_unrolled_vector.md R145, R146). -/

namespace Sys2Proof.Machine

/-- The five rounds in order, each on the state the one before it left (R143, R146). -/
def fiveRounds (s : State) : State :=
  roundOp .phase4 4 (roundOp .phase3 3 (roundOp .phase2 2 (roundOp .phase1 1 (roundOp .phase0 0 s))))

/-- `STEP.U` (R146). -/
def execStepU (s : State) : Host.Outcome State Fault Refusal :=
  if s.err then .next (refuse s) else .next ((fiveRounds s).respond false 0#32)

end Sys2Proof.Machine
end

