-- ==== Sys2Proof/Machine/Dispatch.lean ====
section
/-! DEFINITION. The dispatch from a command to its meaning (30_encoding.md R74). -/

namespace Sys2Proof.Machine

/-- What a decoded command does to the state: its effect and its one response. -/
def exec (i : Instr) (s : State) : Host.Outcome State Fault Refusal :=
  match i with
  | .wrs idx data => Sys2Proof.Machine.execWrs idx data s
  | .rds idx => Sys2Proof.Machine.execRds idx s
  | .rdo idx => Sys2Proof.Machine.execRdo idx s
  | .rdst => Sys2Proof.Machine.execRdst s
  | .stepS => Sys2Proof.Machine.execStepS s
  | .stepR => Sys2Proof.Machine.execStepR s
  | .stepU => Sys2Proof.Machine.execStepU s
  | .stepP d => Sys2Proof.Machine.execStepP d s

end Sys2Proof.Machine
end

