-- ==== Sys2Proof/Machine/Port.lean ====
section
/-! DEFINITION. The command port (30_encoding.md R70) and the host's events (70_reset_and_hazards.md R249). -/

namespace Sys2Proof.Machine

/-- A command word taken from the port: decoded, and executed or, where it does not decode, answered by the
fault `ILLEGAL_CMD` (30_encoding.md R75, R76). -/
def runCommand (c : BitVec 64) (s : State) : Host.Outcome State Fault Refusal :=
  match decode s.hasPhase c with
  | .ok i => exec i s
  | .error _ => .next (raise .illegalCmd s)

/-- Reset asserted while `c` is being executed: the command is abandoned, the state afterwards is the reset state in
any case, and the command's response may or may not have been delivered (70_reset_and_hazards.md R231; log 8). -/
def abandonCommand (c : BitVec 64) (s : State) : Host.Outcome State Fault Refusal :=
  match runCommand c s with
  | .next t =>
    let answered := Config.abandonedAnswered (s.resets + 1)
    .next { s.assertReset with responses := if answered then t.responses else s.responses }
  | .fault r => .fault r
  | .refused r => .refused r

/-- One step of the block: the next event at the port, taken from it. With nothing presented the block idles
and its state is constant (20_memory.md R58, 60_exceptions.md R220; log 1). Reset is an event between commands, or
abandons one (70_reset_and_hazards.md R231; log 8). -/
def servePort (s : State) : Host.Outcome State Fault Refusal :=
  match s.port with
  | [] => .next s
  | .reset :: rest => .next ({ s with port := rest }).assertReset
  | .command c :: rest => runCommand c { s with port := rest }
  | .resetDuring c :: rest => abandonCommand c { s with port := rest }

/-- The command word `c` is what the host presents next, before anything else it has in mind. -/
def State.presentNext (s : State) (c : BitVec 64) : State := { s with port := .command c :: s.port }

end Sys2Proof.Machine
end

