-- ==== Sys2Proof/Machine/Step.lean ====
section
/-! DEFINITION. The step function. -/

namespace Sys2Proof.Machine

/-- One step: the block serves the next event at its port. -/
def step (s : State) : Host.Outcome State Fault Refusal := servePort s

/-- The state with a word, numbered as spec/opcode_table.json numbers its bits, presented at the command port
as the next event. The block fetches nothing (10_state.md R33); its commands come from the host (log 11). -/
def State.withFetchWord (s : State) (nbits w : Nat) : State := s.presentNext (tableCommand nbits w)

end Sys2Proof.Machine
end

