-- ==== Sys2Proof/Machine/Assembler.lean ====
section
/-! DEFINITION. Assembler syntax and pseudo-commands (30_encoding.md R83, R84). A line is a list of
characters until its comment starts; how blanks are skipped is the model's choice (log 13). -/

namespace Sys2Proof

/-- The mnemonics as they are written (R83). -/
def Mnemonic.name : Mnemonic → String
  | .wrs => "WRS"
  | .rds => "RDS"
  | .rdo => "RDO"
  | .rdst => "RDST"
  | .stepS => "STEP.S"
  | .stepR => "STEP.R"
  | .stepU => "STEP.U"
  | .stepP => "STEP.P"

/-- The operation of the source that each step command is (R85); the host access commands have none. -/
def Mnemonic.sourceName : Mnemonic → Option String
  | .wrs => none
  | .rds => none
  | .rdo => none
  | .rdst => none
  | .stepS => some "stepScalar"
  | .stepR => some "stepRingVector"
  | .stepU => some "stepUnrolledVector"
  | .stepP => some "invokeNextPhase"

namespace Machine

/-- The expansion of a pseudo-command, in the order of R84. -/
def expandPseudo : Pseudo → List Instr
  | .seedS a => [.wrs 0#8 a.s0, .wrs 1#8 a.s1, .wrs 2#8 a.s2, .wrs 3#8 a.s3, .wrs 4#8 a.s4]
  | .seedL j a =>
    [.wrs (BitVec.ofNat 8 j.val) a.s0, .wrs (BitVec.ofNat 8 (4 + j.val)) a.s1,
     .wrs (BitVec.ofNat 8 (8 + j.val)) a.s2, .wrs (BitVec.ofNat 8 (12 + j.val)) a.s3,
     .wrs (BitVec.ofNat 8 (16 + j.val)) a.s4]
  | .rot c => [.wrs 20#8 c]
  | .stepP5 => [.stepP 0#8, .stepP 1#8, .stepP 2#8, .stepP 3#8, .stepP 4#8]
  | .rdo4 d =>
    [.rdo (BitVec.ofNat 8 (4 * d.val)), .rdo (BitVec.ofNat 8 (4 * d.val + 1)),
     .rdo (BitVec.ofNat 8 (4 * d.val + 2)), .rdo (BitVec.ofNat 8 (4 * d.val + 3))]

/-- A blank of the assembler text (log 13). -/
def isBlank (c : Char) : Bool := c == ' ' || c == '\t'

/-- The text without blanks at its ends. -/
def trimBlanks (l : List Char) : List Char := ((l.dropWhile isBlank).reverse.dropWhile isBlank).reverse

/-- The value of a digit, decimal or hexadecimal, in a base. -/
def digitValue (base : Nat) (c : Char) : Option Nat :=
  let n := c.toNat
  let v := if 48 ≤ n ∧ n ≤ 57 then n - 48 else if 65 ≤ n ∧ n ≤ 70 then n - 55
    else if 97 ≤ n ∧ n ≤ 102 then n - 87 else base
  if v < base then some v else none

/-- The value of a row of digits, `acc` read so far. -/
def parseDigits (base acc : Nat) : List Char → Option Nat
  | [] => some acc
  | c :: cs =>
    match digitValue base c with
    | none => none
    | some v => parseDigits base (acc * base + v) cs

/-- An unsigned number, decimal or `0x` hexadecimal, with at least one digit (R83). -/
def parseNumber : List Char → Option Nat
  | [] => none
  | ['0', 'x'] => none
  | '0' :: 'x' :: ds => parseDigits 16 0 ds
  | ds => parseDigits 10 0 ds

/-- The pieces of a text between its commas; one piece where there is no comma. -/
def splitCommas : List Char → List (List Char)
  | [] => [[]]
  | c :: cs =>
    match splitCommas cs with
    | [] => [[]]
    | p :: ps => if c == ',' then [] :: p :: ps else (c :: p) :: ps

/-- The operands of a line after its mnemonic (R83). -/
def parseOperands (l : List Char) : Option (List Nat) :=
  match trimBlanks l with
  | [] => some []
  | t => (splitCommas t).mapM fun p => parseNumber (trimBlanks p)

/-- An operand in its field; refused where it does not fit (R83). -/
def operandField (width n : Nat) : Option (BitVec width) := if n < 2 ^ width then some (BitVec.ofNat width n) else none

/-- A command by its mnemonic and operands, in the operand order of R83. -/
def assembleCommand (m : Mnemonic) (ops : List Nat) : Option Instr :=
  match m, ops with
  | .wrs, [i, v] => do return .wrs (← operandField 8 i) (← operandField 32 v)
  | .rds, [i] => do return .rds (← operandField 8 i)
  | .rdo, [i] => do return .rdo (← operandField 8 i)
  | .rdst, [] => some .rdst
  | .stepS, [] => some .stepS
  | .stepR, [] => some .stepR
  | .stepU, [] => some .stepU
  | .stepP, [d] => do return .stepP (← operandField 8 d)
  | _, _ => none

/-- A window given by five numbers. -/
def windowOperand : List Nat → Option Window
  | [a0, a1, a2, a3, a4] => do
    return ⟨← operandField 32 a0, ← operandField 32 a1, ← operandField 32 a2, ← operandField 32 a3,
      ← operandField 32 a4⟩
  | _ => none

/-- A pseudo-command by its name and operands (R84). -/
def assemblePseudo (name : List Char) (ops : List Nat) : Option Pseudo :=
  if name = "SEED.S".toList then (windowOperand ops).map .seedS
  else if name = "SEED.L".toList then
    match ops with
    | j :: as => if h : j < 4 then (windowOperand as).map (.seedL ⟨j, h⟩) else none
    | [] => none
  else if name = "ROT".toList then
    match ops with
    | [c] => (operandField 32 c).map .rot
    | _ => none
  else if name = "STEP.P5".toList then (if ops = [] then some .stepP5 else none)
  else if name = "RDO4".toList then
    match ops with
    | [d] => if h : d < 5 then some (.rdo4 ⟨d, h⟩) else none
    | _ => none
  else none

/-- The commands a line stands for: none in a blank or comment line, one for a command, several for a
pseudo-command; refused where the line is none of these (R83, R84). -/
def assembleChars (line : List Char) : Option (List Instr) :=
  let text := trimBlanks (line.takeWhile fun c => c != '#')
  if text = [] then some []
  else
    let name := text.takeWhile fun c => !isBlank c
    match parseOperands (text.dropWhile fun c => !isBlank c) with
    | none => none
    | some ops =>
      match Mnemonic.all.find? (fun m => m.name.toList == name) with
      | some m => (assembleCommand m ops).map fun i => [i]
      | none => (assemblePseudo name ops).map expandPseudo

/-- The command words of a line of assembler text (R83, R84). -/
def assembleLine (line : String) : Option (List (BitVec 64)) := (assembleChars line.toList).map fun is => is.map encode

end Machine

end Sys2Proof
end

