-- ==== Sys2Proof/Safety.lean ====
section
/-! DEFINITION. The terms in which claims about runs are stated: what a command reads and writes (10_state.md
R30), when it is executed (60_exceptions.md R205), sequences of commands, and what a good run is
(70_reset_and_hazards.md R233, R248 to R250). -/

namespace Sys2Proof.Safety

open Sys2Proof.Machine

/-- A run has ended well exactly when `ERR = 0` in its final state (R248). -/
def endedWell (s : State) : Prop := s.err = false

/-- A counter value `STEP.R` is defined for: 0, 4, 8, 12 or 16 (10_state.md R28). -/
def counterLegal (c : Word) : Prop := c = 0#32 ∨ c = 4#32 ∨ c = 8#32 ∨ c = 12#32 ∨ c = 16#32

/-- The command does not put an illegal value into `W[20]` (R249). -/
def keepsCounterLegal : Instr → Prop
  | .wrs idx data => idx = 20#8 → counterLegal data
  | .rds _ => True
  | .rdo _ => True
  | .rdst => True
  | .stepS => True
  | .stepR => True
  | .stepU => True
  | .stepP _ => True

/-- The four words of slot `q`. -/
def slotWords (q : Slot) : List (Fin 21) := [wIndex q 0, wIndex q 1, wIndex q 2, wIndex q 3]

/-- The four words of output slice `d`. -/
def sliceWords (d : Slot) : List (Fin 20) := [outIndex d 0, outIndex d 1, outIndex d 2, outIndex d 3]

/-- The words `W[0..19]`. -/
def dataWords : List (Fin 21) := slotWords 0 ++ slotWords 1 ++ slotWords 2 ++ slotWords 3 ++ slotWords 4

/-- The words of `W` a command reads when it completes (R30). -/
def readsW (i : Instr) (s : State) : List (Fin 21) :=
  match i with
  | .wrs _ _ => []
  | .rds idx => (wOperand idx).toList
  | .rdo _ => []
  | .rdst => []
  | .stepS => [0, 1, 2, 3, 4]
  | .stepR =>
    match ringBases (s.readW rotIndex) with
    | none => [rotIndex]
    | some b => rotIndex :: (slotWords b.base0 ++ slotWords b.base4 ++ slotWords b.base1)
  | .stepU => dataWords
  | .stepP _ =>
    match s.ph with
    | none => []
    | some k => slotWords k.number ++ slotWords (k.number + 4) ++ slotWords (k.number + 2)

/-- The words of `W` a command writes when it completes (R30). -/
def writesW (i : Instr) (s : State) : List (Fin 21) :=
  match i with
  | .wrs idx _ => (wOperand idx).toList
  | .rds _ => []
  | .rdo _ => []
  | .rdst => []
  | .stepS => [0, 1, 2, 3, 4]
  | .stepR =>
    match ringBases (s.readW rotIndex) with
    | none => []
    | some b => rotIndex :: slotWords b.base0
  | .stepU => dataWords
  | .stepP _ =>
    match s.ph with
    | none => []
    | some k => slotWords k.number

/-- The words of `OUT` a command writes when it completes (R30, R31). -/
def writesOut (i : Instr) : List (Fin 20) :=
  match i with
  | .wrs _ _ => []
  | .rds _ => []
  | .rdo _ => []
  | .rdst => []
  | .stepS => [0]
  | .stepR => sliceWords 0
  | .stepU => sliceWords 0 ++ sliceWords 1 ++ sliceWords 2 ++ sliceWords 3 ++ sliceWords 4
  | .stepP d =>
    match sliceOperand d with
    | none => []
    | some q => sliceWords q

/-- Output words a completed command produces (70_reset_and_hazards.md R246). -/
def outputsPerCommand : Instr → Nat
  | .wrs _ _ => 0
  | .rds _ => 0
  | .rdo _ => 0
  | .rdst => 0
  | .stepS => 1
  | .stepR => 4
  | .stepU => 20
  | .stepP _ => 4

/-- The command is executed, not faulted and not refused: the checks of 60_exceptions.md R205 all pass. -/
def executes (i : Instr) (s : State) : Prop :=
  match i with
  | .wrs idx _ => s.err = false ∧ idx.toNat ≤ 20
  | .rds idx => idx.toNat ≤ 20
  | .rdo idx => idx.toNat ≤ 19
  | .rdst => True
  | .stepS => s.err = false
  | .stepR => s.err = false ∧ counterLegal (s.readW rotIndex)
  | .stepU => s.err = false
  | .stepP d => s.hasPhase = true ∧ s.err = false ∧ d.toNat ≤ 4

/-- `executes` as a test that can be evaluated (`completes_iff`). -/
def completes (i : Instr) (s : State) : Bool :=
  match i with
  | .wrs idx _ => !s.err && (wOperand idx).isSome
  | .rds idx => (wOperand idx).isSome
  | .rdo idx => (outOperand idx).isSome
  | .rdst => true
  | .stepS => !s.err
  | .stepR => !s.err && (ringBases (s.readW rotIndex)).isSome
  | .stepU => !s.err
  | .stepP d => s.hasPhase && !s.err && (sliceOperand d).isSome

/-- The words of `W` the checks of a command read, "as far as its checks need" (R30): `STEP.R` reads its counter
unless it is refused first (60_exceptions.md R205); the other checks read no word of `W`. -/
def checksReadW (i : Instr) (s : State) : List (Fin 21) :=
  match i with
  | .wrs _ _ => []
  | .rds _ => []
  | .rdo _ => []
  | .rdst => []
  | .stepS => []
  | .stepR => if s.err then [] else [rotIndex]
  | .stepU => []
  | .stepP _ => []

/-- The words of `W` a command reads, whether or not it completes (R30). -/
def readsWIn (i : Instr) (s : State) : List (Fin 21) := if completes i s then readsW i s else checksReadW i s

/-- The words of `W` a command writes, whether or not it completes: none if it does not (60_exceptions.md R206,
R208). -/
def writesWIn (i : Instr) (s : State) : List (Fin 21) := if completes i s then writesW i s else []

/-- The command changes state when it is executed; it is refused while `ERR = 1` (60_exceptions.md R208). -/
def stateChanging : Instr → Bool
  | .wrs _ _ => true
  | .rds _ => false
  | .rdo _ => false
  | .rdst => false
  | .stepS => true
  | .stepR => true
  | .stepU => true
  | .stepP _ => true

/-- Commands executed one after another (20_memory.md R59). -/
def execAll : List Instr → State → Host.Outcome State Fault Refusal
  | [], s => .next s
  | i :: is, s =>
    match exec i s with
    | .next t => execAll is t
    | .fault r => .fault r
    | .refused r => .refused r

/-- The block serves the given host events, in order, from a state (70_reset_and_hazards.md R248). -/
def serve (events : List HostEvent) (s : State) : Host.Outcome State Fault Refusal :=
  Host.Core.run Sys2Proof.core events.length { s with port := events }

/-- What must have been written before a step command's result means anything (R233). -/
def seedWords : Instr → List (Fin 21)
  | .wrs _ _ => []
  | .rds _ => []
  | .rdo _ => []
  | .rdst => []
  | .stepS => [0, 1, 2, 3, 4]
  | .stepR => dataWords
  | .stepU => dataWords
  | .stepP _ => dataWords

/-- The host seeds before it steps: every step command of the sequence comes after a `WRS` of each word R233
names, `written` being the words written before. The block does not check it (R233). -/
def seededBefore (written : List (Fin 21)) : List Instr → Bool
  | [] => true
  | i :: is =>
    (seedWords i).all (fun k => written.contains k) &&
      seededBefore
        (match i with
          | .wrs idx _ => (wOperand idx).toList ++ written
          | .rds _ => written
          | .rdo _ => written
          | .rdst => written
          | .stepS => written
          | .stepR => written
          | .stepU => written
          | .stepP _ => written) is

/-- The words of `W` a sequence reads before it writes them: the inputs a claim about the sequence names
(R250 (d)). A command that faults or is refused reads what its checks read and writes none. -/
def launchInputs (written : List (Fin 21)) : List Instr → State → List (Fin 21)
  | [], _ => []
  | i :: is, s =>
    (readsWIn i s).filter (fun k => !written.contains k) ++
      match exec i s with
      | .next t => launchInputs (writesWIn i s ++ written) is t
      | .fault _ => []
      | .refused _ => []

/-- The launch premises a claim names (R250): no fault recorded, the cursor (`none` on a block without the phase
unit, which also names `HAS_PHASE`), and the counter. -/
structure LaunchPremises (s : State) (ph : Option Phase) (counter : Word) : Prop where
  noFault : s.err = false
  cursor : s.ph = ph
  rotation : s.readW rotIndex = counter

end Sys2Proof.Safety
end

