-- ==== Sys2Proof/WellFormed.lean ====
section
/-! DEFINITION. Which commands a block has an encoding for. The operand widths are in the types of `Instr`;
what is left to check is that `STEP.P` exists only on a block built with the phase unit (30_encoding.md R74,
43_phase_dispatch.md R173). An index outside a command's range is well formed (30_encoding.md R73, R83). -/

namespace Sys2Proof

/-- The block, built with or without the phase unit, has this command. -/
def Instr.wellFormed (hasPhase : Bool) : Instr → Bool
  | .wrs _ _ => true
  | .rds _ => true
  | .rdo _ => true
  | .rdst => true
  | .stepS => true
  | .stepR => true
  | .stepU => true
  | .stepP _ => hasPhase

end Sys2Proof
end

