-- ==== Sys2Proof/Certificates/Slice0/Obligations.lean ====
section
/-! DEFINITION. The statements about the model, each from a rule of spec/. First the words they share. -/

namespace Sys2Proof.Claims

open Sys2Proof.Machine Sys2Proof.Safety

/-- The command word `{op, rsv, idx, data}` (30_encoding.md R71). -/
def word (op : BitVec 8) (rsv : BitVec 16) (idx : BitVec 8) (data : Word) : BitVec 64 := op ++ rsv ++ idx ++ data

/-- `W[n]` by its number; no statement uses it outside 0 to 20, where there is no word. -/
def wAt (s : State) (n : Nat) : Word := if h : n < 21 then s.readW ⟨n, h⟩ else 0#32

/-- `OUT[n]` by its number; no statement uses it outside 0 to 19, where there is no word. -/
def outAt (s : State) (n : Nat) : Word := if h : n < 20 then s.readOut ⟨n, h⟩ else 0#32

/-- From `s` to `t` one response was returned, `rsp(e, d)`. -/
def answered (s t : State) (e : Bool) (d : Word) : Prop := t.responses = s.responses ++ [⟨e, d⟩]

/-- Every word of `W` is unchanged. -/
def sameW (s t : State) : Prop := ∀ k, t.readW k = s.readW k

/-- Every word of `OUT` is unchanged. -/
def sameOut (s t : State) : Prop := ∀ k, t.readOut k = s.readOut k

/-- `ERR` and `CAUSE` are unchanged. -/
def sameFlags (s t : State) : Prop := t.err = s.err ∧ t.cause = s.cause

/-- What the host has yet to present, and the number of resets, are unchanged. -/
def samePort (s t : State) : Prop := t.port = s.port ∧ t.resets = s.resets

/-- A refused command: nothing changes, `rsp(1, 0)` (60_exceptions.md R208). -/
def refusedTo (s t : State) : Prop :=
  sameW s t ∧ sameOut s t ∧ t.ph = s.ph ∧ sameFlags s t ∧ samePort s t ∧ answered s t true 0#32

/-- A command that took the fault `f` (60_exceptions.md R206): `ERR` is set, `CAUSE` is the fault's code if it is
the first, nothing else changes, `rsp(1, 0)`. -/
def faultedTo (f : CmdFault) (s t : State) : Prop :=
  t.err = true ∧ (s.err = false → t.cause = some f) ∧ (s.err = true → t.cause = s.cause) ∧
    sameW s t ∧ sameOut s t ∧ t.ph = s.ph ∧ samePort s t ∧ answered s t true 0#32

/-- `ERR = 0` if and only if `CAUSE = 0` (10_state.md R38 (b)). -/
def flagsAgree (s : State) : Prop := s.err = false ↔ s.cause = none

/-- The data a completed command answers with (30_encoding.md R82). -/
def answerData (i : Instr) (s : State) : Word :=
  match i with
  | .wrs _ _ => 0#32
  | .rds idx => wAt s idx.toNat
  | .rdo idx => outAt s idx.toNat
  | .rdst => statusWord s
  | .stepS => (laneStep s.scalarWindow).2
  | .stepR => 0#32
  | .stepU => 0#32
  | .stepP _ => 0#32

/-- The two states agree on what the command reads when it completes (10_state.md R30). -/
def agreeOnReads (i : Instr) (s s' : State) : Prop :=
  (∀ k ∈ readsW i s, s'.readW k = s.readW k) ∧
    match i with
    | .wrs _ _ => True
    | .rds _ => True
    | .rdo idx => outAt s' idx.toNat = outAt s idx.toNat
    | .rdst => s'.err = s.err ∧ s'.cause = s.cause ∧ s'.ph = s.ph
    | .stepS => True
    | .stepR => True
    | .stepU => True
    | .stepP _ => s'.ph = s.ph

/-- The command is `STEP.P`. -/
def isStepP : Instr → Bool
  | .wrs _ _ => false
  | .rds _ => false
  | .rdo _ => false
  | .rdst => false
  | .stepS => false
  | .stepR => false
  | .stepU => false
  | .stepP _ => true

/-- The number of `STEP.P` commands of a sequence that complete, a command having completed when its response has
error bit 0 (30_encoding.md R82). -/
def completedPhases : List Instr → State → Nat
  | [], _ => 0
  | i :: is, s =>
    match exec i s with
    | .next t => (if isStepP i && (t.responses.getLast?.map Response.e == some false) then 1 else 0) + completedPhases is t
    | .fault _ => 0
    | .refused _ => 0

/-- A read, or a write of the rotation counter, with its index in range: what may stand between the five phases
(43_phase_dispatch.md R169). -/
def harmlessBetweenPhases : Instr → Prop
  | .wrs idx _ => idx = 20#8
  | .rds idx => idx.toNat ≤ 20
  | .rdo idx => idx.toNat ≤ 19
  | .rdst => True
  | .stepS => False
  | .stepR => False
  | .stepU => False
  | .stepP _ => False

/-- The two states agree on the words of lane `j`: in `W`, and in every output slice. -/
def laneAgrees (j : Lane) (s s' : State) : Prop :=
  (∀ q, s'.readW (wIndex q j) = s.readW (wIndex q j)) ∧ ∀ d, s'.readOut (outIndex d j) = s.readOut (outIndex d j)

/-- A row of the opcode map: its columns (30_encoding.md R74). -/
structure OpcodeRow where
  mnemonic : Mnemonic
  format : Format
  op : BitVec 8
  value : BitVec 64
  mask : BitVec 64
  deriving DecidableEq, Repr

/-- The opcode map (30_encoding.md R74). -/
def opcodeRows : List OpcodeRow :=
  [⟨.wrs, .D, 0x01#8, 0x0100000000000000#64, 0xFFFFFF0000000000#64⟩,
   ⟨.rds, .I, 0x02#8, 0x0200000000000000#64, 0xFFFFFF00FFFFFFFF#64⟩,
   ⟨.rdo, .I, 0x03#8, 0x0300000000000000#64, 0xFFFFFF00FFFFFFFF#64⟩,
   ⟨.rdst, .Z, 0x04#8, 0x0400000000000000#64, 0xFFFFFFFFFFFFFFFF#64⟩,
   ⟨.stepS, .Z, 0x10#8, 0x1000000000000000#64, 0xFFFFFFFFFFFFFFFF#64⟩,
   ⟨.stepR, .Z, 0x11#8, 0x1100000000000000#64, 0xFFFFFFFFFFFFFFFF#64⟩,
   ⟨.stepU, .Z, 0x12#8, 0x1200000000000000#64, 0xFFFFFFFFFFFFFFFF#64⟩,
   ⟨.stepP, .I, 0x13#8, 0x1300000000000000#64, 0xFFFFFF00FFFFFFFF#64⟩]

end Sys2Proof.Claims

open Sys2Proof Sys2Proof.Machine Sys2Proof.Safety Sys2Proof.Claims

/-! ## One command each -/

/-- R180: `WRS idx, data`, its encoding, its refusal, its fault, and what it writes. -/
def Obligations.WrsWritesOneWord : Prop :=
  ∀ (s : State) (idx : BitVec 8) (data : Word),
    runCommand (word 0x01#8 0#16 idx data) s = exec (.wrs idx data) s ∧
    (∀ rsv, rsv ≠ 0#16 → ∃ t, runCommand (word 0x01#8 rsv idx data) s = .next t ∧ faultedTo .illegalCmd s t) ∧
    (s.err = true → ∃ t, exec (.wrs idx data) s = .next t ∧ refusedTo s t) ∧
    (s.err = false → 20 < idx.toNat → ∃ t, exec (.wrs idx data) s = .next t ∧ faultedTo .badIndex s t) ∧
    (s.err = false → idx.toNat ≤ 20 → ∃ t, exec (.wrs idx data) s = .next t ∧
      wAt t idx.toNat = data ∧ (∀ k, k.val ≠ idx.toNat → t.readW k = s.readW k) ∧
      sameOut s t ∧ t.ph = s.ph ∧ sameFlags s t ∧ samePort s t ∧ answered s t false 0#32)

/-- R181: `RDS idx`, not refused while `ERR = 1`. -/
def Obligations.RdsReadsOneWord : Prop :=
  ∀ (s : State) (idx : BitVec 8),
    runCommand (word 0x02#8 0#16 idx 0#32) s = exec (.rds idx) s ∧
    (∀ rsv data, rsv ≠ 0#16 ∨ data ≠ 0#32 →
      ∃ t, runCommand (word 0x02#8 rsv idx data) s = .next t ∧ faultedTo .illegalCmd s t) ∧
    (20 < idx.toNat → ∃ t, exec (.rds idx) s = .next t ∧ faultedTo .badIndex s t) ∧
    (idx.toNat ≤ 20 → ∃ t, exec (.rds idx) s = .next t ∧
      sameW s t ∧ sameOut s t ∧ t.ph = s.ph ∧ sameFlags s t ∧ samePort s t ∧
      answered s t false (wAt s idx.toNat))

/-- R182: `RDO idx`; the bound is 19. -/
def Obligations.RdoReadsOneOutput : Prop :=
  ∀ (s : State) (idx : BitVec 8),
    runCommand (word 0x03#8 0#16 idx 0#32) s = exec (.rdo idx) s ∧
    (∀ rsv data, rsv ≠ 0#16 ∨ data ≠ 0#32 →
      ∃ t, runCommand (word 0x03#8 rsv idx data) s = .next t ∧ faultedTo .illegalCmd s t) ∧
    (19 < idx.toNat → ∃ t, exec (.rdo idx) s = .next t ∧ faultedTo .badIndex s t) ∧
    (idx.toNat ≤ 19 → ∃ t, exec (.rdo idx) s = .next t ∧
      sameW s t ∧ sameOut s t ∧ t.ph = s.ph ∧ sameFlags s t ∧ samePort s t ∧
      answered s t false (outAt s idx.toNat))

/-- R183 with R35: `RDST`, never refused, and every bit of the word it answers. -/
def Obligations.RdstReadsStatus : Prop :=
  ∀ s : State,
    runCommand (word 0x04#8 0#16 0#8 0#32) s = exec .rdst s ∧
    (∀ rsv idx data, rsv ≠ 0#16 ∨ idx ≠ 0#8 ∨ data ≠ 0#32 →
      ∃ t, runCommand (word 0x04#8 rsv idx data) s = .next t ∧ faultedTo .illegalCmd s t) ∧
    ∃ t d, exec .rdst s = .next t ∧ answered s t false d ∧
      sameW s t ∧ sameOut s t ∧ t.ph = s.ph ∧ sameFlags s t ∧ samePort s t ∧
      d.getLsbD 0 = s.err ∧
      d.extractLsb' 1 3 =
        (match s.cause with
          | none => 0#3
          | some .illegalCmd => 1#3
          | some .badIndex => 2#3
          | some .badRot => 3#3) ∧
      d.extractLsb' 4 3 =
        (match s.ph with
          | none => 0#3
          | some .phase0 => 0#3
          | some .phase1 => 1#3
          | some .phase2 => 2#3
          | some .phase3 => 3#3
          | some .phase4 => 4#3) ∧
      d.getLsbD 7 = s.hasPhase ∧
      d.extractLsb' 8 24 = 0#24

/-- R109: `STEP.S`, written out on the five words. -/
def Obligations.StepSAdvancesScalarWindow : Prop :=
  ∀ s : State,
    runCommand (word 0x10#8 0#16 0#8 0#32) s = exec .stepS s ∧
    (∀ rsv idx data, rsv ≠ 0#16 ∨ idx ≠ 0#8 ∨ data ≠ 0#32 →
      ∃ t, runCommand (word 0x10#8 rsv idx data) s = .next t ∧ faultedTo .illegalCmd s t) ∧
    (s.err = true → ∃ t, exec .stepS s = .next t ∧ refusedTo s t) ∧
    (s.err = false → ∃ t v, exec .stepS s = .next t ∧
      v = (wAt s 4 ^^^ (wAt s 4 <<< 6)) ^^^
        ((wAt s 0 ^^^ (wAt s 0 >>> 7)) ^^^ ((wAt s 0 ^^^ (wAt s 0 >>> 7)) <<< 13)) ∧
      wAt t 0 = wAt s 1 ∧ wAt t 1 = wAt s 2 ∧ wAt t 2 = wAt s 3 ∧ wAt t 3 = wAt s 4 ∧ wAt t 4 = v ∧
      outAt t 0 = (wAt s 2 + wAt s 2 + 1#32) * v ∧
      (∀ k, 4 < k.val → t.readW k = s.readW k) ∧ (∀ k, 0 < k.val → t.readOut k = s.readOut k) ∧
      t.ph = s.ph ∧ sameFlags s t ∧ samePort s t ∧ answered s t false (outAt t 0))

/-- R121 with R124: `STEP.R` for each legal counter, the bases by their word indices; any other counter faults. -/
def Obligations.StepRAdvancesRing : Prop :=
  ∀ s : State,
    runCommand (word 0x11#8 0#16 0#8 0#32) s = exec .stepR s ∧
    (∀ rsv idx data, rsv ≠ 0#16 ∨ idx ≠ 0#8 ∨ data ≠ 0#32 →
      ∃ t, runCommand (word 0x11#8 rsv idx data) s = .next t ∧ faultedTo .illegalCmd s t) ∧
    (s.err = true → ∃ t, exec .stepR s = .next t ∧ refusedTo s t) ∧
    (s.err = false → wAt s 20 ∉ [0#32, 4#32, 8#32, 12#32, 16#32] →
      ∃ t, exec .stepR s = .next t ∧ faultedTo .badRot s t) ∧
    (s.err = false → ∀ c base0 base1 : Nat,
      (c, base0, base1) ∈ [(0, 4, 12), (4, 8, 16), (8, 12, 0), (12, 16, 4), (16, 0, 8)] →
      wAt s 20 = BitVec.ofNat 32 c →
      ∃ t, exec .stepR s = .next t ∧
        (∀ j, j < 4 → ∃ u v,
          u = wAt s (base0 + j) ^^^ (wAt s (base0 + j) >>> 7) ∧
          v = (wAt s (c + j) ^^^ (wAt s (c + j) <<< 6)) ^^^ (u ^^^ (u <<< 13)) ∧
          wAt t (base0 + j) = v ∧
          outAt t j = (wAt s (base1 + j) + wAt s (base1 + j) + 1#32) * v) ∧
        wAt t 20 = BitVec.ofNat 32 base0 ∧
        (∀ k, k.val < base0 ∨ base0 + 4 ≤ k.val → k.val ≠ 20 → t.readW k = s.readW k) ∧
        (∀ k, 4 ≤ k.val → t.readOut k = s.readOut k) ∧
        t.ph = s.ph ∧ sameFlags s t ∧ samePort s t ∧ answered s t false 0#32)

/-- R146: `STEP.U` is the five rounds in order; `W[20]` and `PH` are neither read nor written. -/
def Obligations.StepURunsFiveRoundsInOrder : Prop :=
  ∀ s : State,
    runCommand (word 0x12#8 0#16 0#8 0#32) s = exec .stepU s ∧
    (∀ rsv idx data, rsv ≠ 0#16 ∨ idx ≠ 0#8 ∨ data ≠ 0#32 →
      ∃ t, runCommand (word 0x12#8 rsv idx data) s = .next t ∧ faultedTo .illegalCmd s t) ∧
    (s.err = true → ∃ t, exec .stepU s = .next t ∧ refusedTo s t) ∧
    (s.err = false → ∃ t s1 s2 s3 s4 s5, exec .stepU s = .next t ∧
      s1 = roundOp .phase0 0 s ∧ s2 = roundOp .phase1 1 s1 ∧ s3 = roundOp .phase2 2 s2 ∧
      s4 = roundOp .phase3 3 s3 ∧ s5 = roundOp .phase4 4 s4 ∧
      sameW s5 t ∧ sameOut s5 t ∧ wAt t 20 = wAt s 20 ∧ t.ph = s.ph ∧ sameFlags s t ∧ samePort s t ∧
      answered s t false 0#32 ∧
      ∀ s' : State, s'.err = false → (∀ k, k.val < 20 → s'.readW k = s.readW k) →
        ∃ t', exec .stepU s' = .next t' ∧ (∀ k, k.val < 20 → t'.readW k = t.readW k) ∧ sameOut t t')

/-- R140 with R141: `ROUND(k, d)` lane by lane with the round table's word offsets, all reads before the write; it
touches nothing else. -/
def Obligations.RoundLaneByLane : Prop :=
  ∀ (s : State) (k : Phase) (d : Slot) (tOff s4Off s1Off stOff : Nat),
    (k.number.val, tOff, s4Off, s1Off, stOff) ∈
      [(0, 0, 16, 8, 0), (1, 4, 0, 12, 4), (2, 8, 4, 16, 8), (3, 12, 8, 0, 12), (4, 16, 12, 4, 16)] →
    (∀ j, j < 4 → ∃ u v,
      u = wAt s (tOff + j) ^^^ (wAt s (tOff + j) >>> 7) ∧
      v = (wAt s (s4Off + j) ^^^ (wAt s (s4Off + j) <<< 6)) ^^^ (u ^^^ (u <<< 13)) ∧
      wAt (roundOp k d s) (stOff + j) = v ∧
      outAt (roundOp k d s) (4 * d.val + j) = (wAt s (s1Off + j) + wAt s (s1Off + j) + 1#32) * v) ∧
    (∀ i, i.val < stOff ∨ stOff + 4 ≤ i.val → (roundOp k d s).readW i = s.readW i) ∧
    (∀ i, i.val < 4 * d.val ∨ 4 * d.val + 4 ≤ i.val → (roundOp k d s).readOut i = s.readOut i) ∧
    (roundOp k d s).ph = s.ph ∧ sameFlags s (roundOp k d s) ∧ samePort s (roundOp k d s) ∧
    (roundOp k d s).responses = s.responses

/-- R142 (the spec's own inference): the closed form of the round table, as word offsets. -/
def Obligations.RoundTableClosedForm : Prop :=
  ∀ k : Phase,
    4 * (roundTable k).tOff.val = 4 * k.number.val ∧ 4 * (roundTable k).stOff.val = 4 * k.number.val ∧
    4 * (roundTable k).s4Off.val = (4 * k.number.val + 16) % 20 ∧
    4 * (roundTable k).s1Off.val = (4 * k.number.val + 8) % 20

/-- R143: each round's `s4` is read from the slot the round before it stored to, round 0's from the slot of round 4;
rounds 3 and 4 read their `s1` from the slots of rounds 0 and 1. -/
def Obligations.RoundDependencyChain : Prop :=
  (∀ k : Phase, (roundTable k.next).s4Off = (roundTable k).stOff) ∧
  (roundTable .phase3).s1Off = (roundTable .phase0).stOff ∧ (roundTable .phase4).s1Off = (roundTable .phase1).stOff

/-- R122: the three bases for each legal counter, as word indices, with their closed forms and the round each row
equals. -/
def Obligations.RingBasesTable : Prop :=
  ∀ c c1 base0 base1 r : Nat,
    (c, c1, base0, base1, r) ∈
      [(0, 4, 4, 12, 1), (4, 8, 8, 16, 2), (8, 12, 12, 0, 3), (12, 16, 16, 4, 4), (16, 20, 0, 8, 0)] →
    c1 = c + 4 ∧ base0 = (c + 4) % 20 ∧ base1 = (c + 12) % 20 ∧ base1 = (base0 + 8) % 20 ∧ c = (base0 + 16) % 20 ∧
    ∃ b, ringBases (BitVec.ofNat 32 c) = some b ∧ 4 * b.base4.val = c ∧ 4 * b.base0.val = base0 ∧
      4 * b.base1.val = base1 ∧ (⟨b.base0, b.base4, b.base1, b.base0⟩ : RoundRow) = roundTable (Phase.ofNumber (Fin.ofNat 5 r))

/-- R161 to R166: `STEP.P d` runs the phase the cursor designates, written out with each phase's offsets, and
advances the cursor; a slice above 4 faults before anything is read or written; a word with `rsv` or `data` nonzero, or
on a block without the unit, is illegal. -/
def Obligations.StepPRunsDesignatedPhase : Prop :=
  ∀ (s : State) (d : BitVec 8),
    (∀ rsv data, rsv ≠ 0#16 ∨ data ≠ 0#32 ∨ s.hasPhase = false →
      ∃ t, runCommand (word 0x13#8 rsv d data) s = .next t ∧ faultedTo .illegalCmd s t) ∧
    ∀ k : Phase, s.ph = some k →
    runCommand (word 0x13#8 0#16 d 0#32) s = exec (.stepP d) s ∧
    (s.err = true → ∃ t, exec (.stepP d) s = .next t ∧ refusedTo s t) ∧
    (s.err = false → 4 < d.toNat → ∃ t, exec (.stepP d) s = .next t ∧ faultedTo .badIndex s t) ∧
    (s.err = false → d.toNat ≤ 4 → ∀ tOff s4Off s1Off : Nat, ∀ k' : Phase,
      (k, tOff, s4Off, s1Off, k') ∈
        [(Phase.phase0, 0, 16, 8, Phase.phase1), (Phase.phase1, 4, 0, 12, Phase.phase2),
         (Phase.phase2, 8, 4, 16, Phase.phase3), (Phase.phase3, 12, 8, 0, Phase.phase4),
         (Phase.phase4, 16, 12, 4, Phase.phase0)] →
      ∃ t, exec (.stepP d) s = .next t ∧
        (∀ j, j < 4 → ∃ u v,
          u = wAt s (tOff + j) ^^^ (wAt s (tOff + j) >>> 7) ∧
          v = (wAt s (s4Off + j) ^^^ (wAt s (s4Off + j) <<< 6)) ^^^ (u ^^^ (u <<< 13)) ∧
          wAt t (tOff + j) = v ∧
          outAt t (4 * d.toNat + j) = (wAt s (s1Off + j) + wAt s (s1Off + j) + 1#32) * v) ∧
        t.ph = some k' ∧
        (∀ i, i.val < tOff ∨ tOff + 4 ≤ i.val → t.readW i = s.readW i) ∧
        (∀ i, i.val < 4 * d.toNat ∨ 4 * d.toNat + 4 ≤ i.val → t.readOut i = s.readOut i) ∧
        sameFlags s t ∧ samePort s t ∧ answered s t false 0#32)

/-- R173: on a block without the phase unit `STEP.P` is an illegal command, and `STATUS[7]` and `STATUS[6:4]` read
0. -/
def Obligations.NoPhaseUnitMakesStepPIllegal : Prop :=
  ∀ s : State, s.hasPhase = false →
    (∀ d, ∃ t, runCommand (word 0x13#8 0#16 d 0#32) s = .next t ∧ faultedTo .illegalCmd s t) ∧
    ∃ t d, exec .rdst s = .next t ∧ answered s t false d ∧ d.getLsbD 7 = false ∧ d.extractLsb' 4 3 = 0#3

/-! ## The recurrence -/

/-- R100: `XS_T`, its bits and its examples. -/
def Obligations.XsTBits : Prop :=
  (∀ a, xsT a = a ^^^ (a >>> 7)) ∧
  (∀ (a : Word) n, n ≤ 24 → (a >>> 7).getLsbD n = a.getLsbD (n + 7)) ∧
  (∀ (a : Word) n, 25 ≤ n → n ≤ 31 → (a >>> 7).getLsbD n = false) ∧
  (∀ a n, n ≤ 24 → (xsT a).getLsbD n = ((a.getLsbD n) ^^ (a.getLsbD (n + 7)))) ∧
  (∀ a n, 25 ≤ n → n ≤ 31 → (xsT a).getLsbD n = a.getLsbD n) ∧
  xsT 1#32 = 1#32 ∧ xsT 0x80#32 = 0x81#32 ∧ xsT 0x80000000#32 = 0x81000000#32 ∧
  xsT 0xFFFFFFFF#32 = 0xFE000000#32

/-- R101: `XS_V`; the shifts are products that drop the bits past bit 31; the grouping is immaterial; its examples. -/
def Obligations.XsVShiftsDropHighBits : Prop :=
  (∀ v t : Word, xsV v t = (v ^^^ BitVec.ofNat 32 (v.toNat * 64 % 2 ^ 32)) ^^^
    (t ^^^ BitVec.ofNat 32 (t.toNat * 8192 % 2 ^ 32))) ∧
  (∀ v t : Word, xsV v t = v ^^^ (v <<< 6) ^^^ t ^^^ (t <<< 13)) ∧
  xsV 5#32 1#32 = 0x2144#32 ∧ xsV 0xFFFFFFFF#32 0#32 = 0x3F#32 ∧ xsV 0#32 0xFFFFFFFF#32 = 0x1FFF#32 ∧
  xsV 0x04000000#32 0#32 = 0x04000000#32

/-- R102: `XS_OUT` is the product with the odd number `2y + 1`, modulo `2^32`, reduced twice or once; bit 31 of `y` has
no influence; its examples. -/
def Obligations.XsOutOddMultiplier : Prop :=
  (∀ y v : Word, (xsOut y v).toNat = (y.toNat + y.toNat + 1) % 2 ^ 32 * v.toNat % 2 ^ 32) ∧
  (∀ y : Word, (y + y + 1#32).getLsbD 0 = true) ∧
  (∀ y v : Word, (xsOut y v).toNat = (2 * y.toNat + 1) * v.toNat % 2 ^ 32) ∧
  (∀ y v : Word, xsOut y v = xsOut (y ^^^ 0x80000000#32) v) ∧
  xsOut 3#32 8516#32 = 0xE8DC#32 ∧ xsOut 0x7FFFFFFF#32 1#32 = 0xFFFFFFFF#32 ∧
  xsOut 0xFFFFFFFF#32 0xFFFFFFFF#32 = 1#32 ∧ xsOut 0x80000000#32 5#32 = 5#32

/-- R103: `LaneStep`: the old `s1` to `s4` move down, the new `s4` is `v`, and the output uses the old `s2` and the new
`s4`. -/
def Obligations.LaneStepFourSteps : Prop :=
  ∀ s0 s1 s2 s3 s4 : Word, ∃ t v, t = s0 ^^^ (s0 >>> 7) ∧ v = (s4 ^^^ (s4 <<< 6)) ^^^ (t ^^^ (t <<< 13)) ∧
    laneStep ⟨s0, s1, s2, s3, s4⟩ = (⟨s1, s2, s3, s4, v⟩, (s2 + s2 + 1#32) * v)

/-- R107 (the spec's own inference): the all-zero window is a fixed point for ever; the maps are bijections; when the output is 0 and when it
is odd. -/
def Obligations.RecurrenceIsBijective : Prop :=
  (∀ n, laneSteps n ⟨0#32, 0#32, 0#32, 0#32, 0#32⟩ = ⟨0#32, 0#32, 0#32, 0#32, 0#32⟩ ∧
    laneOutput n ⟨0#32, 0#32, 0#32, 0#32, 0#32⟩ = 0#32) ∧
  Function.Bijective xsT ∧ (∀ t, Function.Bijective fun v => xsV v t) ∧
  Function.Bijective (fun a => (laneStep a).1) ∧
  (∀ a, (laneStep a).1.s4 = 0#32 → (laneStep a).2 = 0#32) ∧
  (∀ a, (laneStep a).2.getLsbD 0 = (laneStep a).1.s4.getLsbD 0)

/-- R103, R109: `n + 1` scalar steps answer, and leave in `OUT[0]`, the output of lane step number `n + 1` on the
window they started from. -/
def Obligations.StepSIsScalarStream : Prop :=
  ∀ (s : State) (n : Nat), s.err = false →
    ∃ t, execAll (List.replicate (n + 1) .stepS) s = .next t ∧
      t.scalarWindow = laneSteps (n + 1) s.scalarWindow ∧
      outAt t 0 = laneOutput n s.scalarWindow ∧
      t.responses.getLast? = some ⟨false, laneOutput n s.scalarWindow⟩ ∧ t.err = false

/-! ## The variants against each other and against the recurrence -/

/-- R147 (the spec's own inference): successive `STEP.U` give each lane the scalar stream of the window it started with, five outputs a
command, with no realignment. -/
def Obligations.StepUIsFiveLaneSteps : Prop :=
  ∀ (s : State) (n : Nat), s.err = false →
    ∃ t, execAll (List.replicate (n + 1) .stepU) s = .next t ∧
      ∀ j : Lane, t.window 0 j = laneSteps (5 * (n + 1)) (s.window 0 j) ∧
        ∀ k : Slot, t.readOut (outIndex k j) = laneOutput (5 * n + k.val) (s.window 0 j)

/-- R148 (the spec's own inference): from `PH = 0` the five commands `STEP.P 0` to `STEP.P 4` leave the same `W` and the same `OUT` as one
`STEP.U`, and leave `PH = 0`. -/
def Obligations.FivePhasesEqualStepU : Prop :=
  ∀ s : State, s.err = false → s.ph = some .phase0 →
    ∃ t u, execAll [.stepP 0#8, .stepP 1#8, .stepP 2#8, .stepP 3#8, .stepP 4#8] s = .next t ∧
      exec .stepU s = .next u ∧ sameW u t ∧ sameOut u t ∧ t.ph = some .phase0

/-- R169: reads and writes of `W[20]` between the five phases do not disturb the equality with `STEP.U`. -/
def Obligations.ReadsBetweenPhasesDoNotDisturb : Prop :=
  ∀ (s : State) (cs : List Instr), s.err = false → s.ph = some .phase0 →
    (∀ i ∈ cs, isStepP i = true ∨ harmlessBetweenPhases i) →
    cs.filter isStepP = [.stepP 0#8, .stepP 1#8, .stepP 2#8, .stepP 3#8, .stepP 4#8] →
    ∃ t u, execAll cs s = .next t ∧ exec .stepU s = .next u ∧
      (∀ k, k ≠ rotIndex → t.readW k = u.readW k) ∧ sameOut u t ∧ t.ph = some .phase0

/-- R127 (the spec's own inference): a `STEP.R` with `W[20] = c` changes `W[0..19]` and `OUT` as `ROUND((c/4 + 1) mod 5, 0)` does and sets
`W[20]` to `(c + 4) mod 20`. -/
def Obligations.StepRIsOneRound : Prop :=
  ∀ (s : State) (c : Nat), s.err = false → c ∈ [0, 4, 8, 12, 16] → s.readW rotIndex = BitVec.ofNat 32 c →
    ∃ t r, exec .stepR s = .next t ∧ r = Phase.ofNumber (Fin.ofNat 5 (c / 4 + 1)) ∧
      (∀ k, k ≠ rotIndex → t.readW k = (roundOp r 0 s).readW k) ∧
      (∀ k, t.readOut k = (roundOp r 0 s).readOut k) ∧
      t.readW rotIndex = BitVec.ofNat 32 ((c + 4) % 20)

/-- R127 (the spec's own inference): five `STEP.R` from `W[20] = 16` produce, call by call, the five output slices of one `STEP.U` and leave
the same `W[0..19]`, with `W[20] = 16` again. -/
def Obligations.FiveStepREqualStepU : Prop :=
  ∀ s : State, s.err = false → s.readW rotIndex = 16#32 →
    ∃ u, exec .stepU s = .next u ∧
      (∀ n : Slot, ∃ t, execAll (List.replicate (n.val + 1) .stepR) s = .next t ∧
        ∀ j, t.readOut (outIndex 0 j) = u.readOut (outIndex n j)) ∧
      ∃ t, execAll (List.replicate 5 .stepR) s = .next t ∧
        (∀ k, k ≠ rotIndex → t.readW k = u.readW k) ∧ t.readW rotIndex = 16#32

/-- R128 (the spec's own inference): with lane `j` laid out as `W[((c + 4 + 4m) mod 20) + j] = a_m`, the `n`-th `STEP.R` writes to `OUT[j]` the
output of the `n`-th lane step on that window, for every `n` and all four lanes. -/
def Obligations.StepRIsScalarStreamForEver : Prop :=
  ∀ (s : State) (c n : Nat), s.err = false → c ∈ [0, 4, 8, 12, 16] → s.readW rotIndex = BitVec.ofNat 32 c →
    ∃ t, execAll (List.replicate (n + 1) .stepR) s = .next t ∧
      ∀ (j : Lane) (a : Window),
        wAt s ((c + 4) % 20 + j.val) = a.s0 → wAt s ((c + 8) % 20 + j.val) = a.s1 →
        wAt s ((c + 12) % 20 + j.val) = a.s2 → wAt s ((c + 16) % 20 + j.val) = a.s3 →
        wAt s ((c + 20) % 20 + j.val) = a.s4 →
        outAt t j.val = laneOutput n a

/-- R125 (the spec's own inference): a completed `STEP.R` stores `(c + 4) mod 20`, a legal counter, and five of them bring the counter back. -/
def Obligations.RingCounterCycle : Prop :=
  ∀ s : State, s.err = false → counterLegal (s.readW rotIndex) →
    (∃ t, exec .stepR s = .next t ∧ (t.readW rotIndex).toNat = ((s.readW rotIndex).toNat + 4) % 20 ∧
      (t.readW rotIndex).toNat < 20 ∧ (t.readW rotIndex).toNat % 4 = 0) ∧
    ∃ t, execAll (List.replicate 5 .stepR) s = .next t ∧ t.readW rotIndex = s.readW rotIndex

/-- R170 (the spec's own inference): from `PH = k`, with each lane's window read from slot `k` on, any `STEP.P` commands perform one lane step
each, the last writes its four outputs to the slice it names, and the windows stay laid out for the new `PH`. -/
def Obligations.StepPIsScalarStreamForEver : Prop :=
  ∀ (s : State) (k : Phase) (ds : List Slot) (d : Slot), s.err = false → s.ph = some k →
    ∃ t k', execAll ((ds ++ [d]).map fun q => .stepP (BitVec.ofNat 8 q.val)) s = .next t ∧ t.ph = some k' ∧
      k'.number.val = (k.number.val + ds.length + 1) % 5 ∧
      ∀ j : Lane, t.window k'.number j = laneSteps (ds.length + 1) (s.window k.number j) ∧
        t.readOut (outIndex d j) = laneOutput ds.length (s.window k.number j)

/-- R238 (the spec's own inference): a `STEP.U` before a `STEP.P` is harmless when `PH = 0`: the lanes go on with their streams. -/
def Obligations.StepUAtPhaseZeroContinuesStreams : Prop :=
  ∀ (s : State) (d : Slot), s.err = false → s.ph = some .phase0 →
    ∃ t, execAll [.stepU, .stepP (BitVec.ofNat 8 d.val)] s = .next t ∧ t.ph = some .phase1 ∧
      ∀ j : Lane, t.window 1 j = laneSteps 6 (s.window 0 j) ∧
        t.readOut (outIndex d j) = laneOutput 5 (s.window 0 j)

/-- R126, R144: lane `j` of every result of a vector command depends only on lane `j` of the operands (and on the
counter or the cursor). -/
def Obligations.LanesAreIndependent : Prop :=
  ∀ (i : Instr) (s s' : State) (j : Lane),
    i = .stepR ∨ i = .stepU ∨ (∃ d, i = .stepP d) →
    executes i s → executes i s' → s'.readW rotIndex = s.readW rotIndex → s'.ph = s.ph → laneAgrees j s s' →
    ∃ t t', exec i s = .next t ∧ exec i s' = .next t' ∧ laneAgrees j t t'

/-! ## What commands read and write -/

/-- R30 (the spec's own inference): a command that completes writes nothing outside its write set. -/
def Obligations.CommandsKeepToWriteSets : Prop :=
  ∀ (i : Instr) (s : State), executes i s →
    ∃ t, exec i s = .next t ∧
      (∀ k, k ∉ writesW i s → t.readW k = s.readW k) ∧ (∀ k, k ∉ writesOut i → t.readOut k = s.readOut k) ∧
      (isStepP i = false → t.ph = s.ph) ∧ sameFlags s t ∧ samePort s t

/-- R30 (the spec's own inference): the result of a command that completes, its response and every word it writes, depends on nothing outside
its read set. -/
def Obligations.ResultsDependOnReadSetsOnly : Prop :=
  ∀ (i : Instr) (s s' : State), executes i s → executes i s' → agreeOnReads i s s' →
    ∃ t t' d, exec i s = .next t ∧ exec i s' = .next t' ∧ answered s t false d ∧ answered s' t' false d ∧
      writesW i s' = writesW i s ∧
      (∀ k ∈ writesW i s, t'.readW k = t.readW k) ∧ (∀ k ∈ writesOut i, t'.readOut k = t.readOut k) ∧
      (isStepP i = true → t'.ph = t.ph)

/-- R246: the outputs of a command: it writes as many words of `OUT` as the rule says, the words of its row of R30
(`writesOut`), pairwise different, and no others; their new values do not depend on what `OUT` held. -/
def Obligations.OutputsPerCommand : Prop :=
  ∀ (i : Instr) (s : State), executes i s →
    (writesOut i).Nodup ∧ (writesOut i).length = outputsPerCommand i ∧
      ∃ t, exec i s = .next t ∧ (∀ k, k ∉ writesOut i → t.readOut k = s.readOut k) ∧
        ∀ s' : State, s'.w = s.w → s'.ph = s.ph → s'.err = s.err →
          ∃ t', exec i s' = .next t' ∧ (∀ k ∈ writesOut i, t'.readOut k = t.readOut k) ∧
            ∀ k, k ∉ writesOut i → t'.readOut k = s'.readOut k

/-- R58: reads have no side effect and can be repeated any number of times with the same answer, also while `ERR` is
set; a write stores its word and does nothing else, at every index; with no command the state is constant. -/
def Obligations.ReadsHaveNoSideEffect : Prop :=
  (∀ (i : Instr) (s : State) (n : Nat), stateChanging i = false → executes i s →
    ∃ t, execAll (List.replicate n i) s = .next t ∧
      t.responses = s.responses ++ List.replicate n ⟨false, answerData i s⟩ ∧
      sameW s t ∧ sameOut s t ∧ t.ph = s.ph ∧ sameFlags s t ∧ samePort s t) ∧
  (∀ (s : State) (i : Fin 21) (v : Word), s.err = false →
    ∃ t, exec (.wrs (BitVec.ofNat 8 i.val) v) s = .next t ∧ t.readW i = v ∧ (∀ k, k ≠ i → t.readW k = s.readW k) ∧
      sameOut s t ∧ t.ph = s.ph ∧ sameFlags s t ∧ samePort s t) ∧
  ∀ s : State, s.port = [] → step s = .next s

/-- R234 (the spec's own inference): writes of seed words to different indices commute. -/
def Obligations.SeedWritesCommute : Prop :=
  ∀ (s : State) (i j : BitVec 8) (a b : Word), s.err = false → i.toNat ≤ 20 → j.toNat ≤ 20 → i ≠ j →
    ∃ t, execAll [.wrs i a, .wrs j b] s = .next t ∧ execAll [.wrs j b, .wrs i a] s = .next t ∧
      wAt t i.toNat = a ∧ wAt t j.toNat = b

/-- R84: the five pseudo-commands, each with its expansion. `SEED.S` loads the scalar window; `SEED.L j` loads lane
`j`'s words into slots 0 to 4, the window read from slot 0 (counter 16, cursor 0), and `a1, a2, a3, a4, a0` read from
slot 1 (counter 0); `ROT` sets the counter; `RDO4 d` answers the four words of the slice. Each of them completes every
one of its commands and changes nothing else; what `STEP.P5` does is `FivePhasesEqualStepU`. -/
def Obligations.PseudoCommandsExpand : Prop :=
  (∀ a0 a1 a2 a3 a4, expandPseudo (.seedS ⟨a0, a1, a2, a3, a4⟩) =
    [.wrs 0#8 a0, .wrs 1#8 a1, .wrs 2#8 a2, .wrs 3#8 a3, .wrs 4#8 a4]) ∧
  (∀ (j : Lane) a0 a1 a2 a3 a4, expandPseudo (.seedL j ⟨a0, a1, a2, a3, a4⟩) =
    [.wrs (BitVec.ofNat 8 j.val) a0, .wrs (BitVec.ofNat 8 (4 + j.val)) a1, .wrs (BitVec.ofNat 8 (8 + j.val)) a2,
     .wrs (BitVec.ofNat 8 (12 + j.val)) a3, .wrs (BitVec.ofNat 8 (16 + j.val)) a4]) ∧
  (∀ c, expandPseudo (.rot c) = [.wrs 20#8 c]) ∧
  expandPseudo .stepP5 = [.stepP 0#8, .stepP 1#8, .stepP 2#8, .stepP 3#8, .stepP 4#8] ∧
  (∀ d : Slot, expandPseudo (.rdo4 d) =
    [.rdo (BitVec.ofNat 8 (4 * d.val)), .rdo (BitVec.ofNat 8 (4 * d.val + 1)), .rdo (BitVec.ofNat 8 (4 * d.val + 2)),
     .rdo (BitVec.ofNat 8 (4 * d.val + 3))]) ∧
  (∀ (s : State) (a : Window), s.err = false →
    ∃ t, execAll (expandPseudo (.seedS a)) s = .next t ∧ t.scalarWindow = a ∧
      (∀ k, 4 < k.val → t.readW k = s.readW k) ∧ sameOut s t ∧ t.ph = s.ph ∧ sameFlags s t ∧ samePort s t ∧
      t.responses = s.responses ++ List.replicate 5 ⟨false, 0#32⟩) ∧
  (∀ (s : State) (j : Lane) (a : Window), s.err = false →
    ∃ t, execAll (expandPseudo (.seedL j a)) s = .next t ∧ t.window 0 j = a ∧
      t.window 1 j = ⟨a.s1, a.s2, a.s3, a.s4, a.s0⟩ ∧
      (∀ q j', j' ≠ j → t.readW (wIndex q j') = s.readW (wIndex q j')) ∧ t.readW rotIndex = s.readW rotIndex ∧
      sameOut s t ∧ t.ph = s.ph ∧ sameFlags s t ∧ samePort s t ∧
      t.responses = s.responses ++ List.replicate 5 ⟨false, 0#32⟩) ∧
  (∀ (s : State) (c : Word), s.err = false →
    ∃ t, execAll (expandPseudo (.rot c)) s = .next t ∧ t.readW rotIndex = c ∧
      (∀ k, k ≠ rotIndex → t.readW k = s.readW k) ∧ sameOut s t ∧ t.ph = s.ph ∧ sameFlags s t ∧ samePort s t ∧
      answered s t false 0#32) ∧
  ∀ (s : State) (d : Slot),
    ∃ t, execAll (expandPseudo (.rdo4 d)) s = .next t ∧ sameW s t ∧ sameOut s t ∧ t.ph = s.ph ∧ sameFlags s t ∧
      samePort s t ∧
      t.responses = s.responses ++
        [⟨false, outAt s (4 * d.val)⟩, ⟨false, outAt s (4 * d.val + 1)⟩, ⟨false, outAt s (4 * d.val + 2)⟩,
         ⟨false, outAt s (4 * d.val + 3)⟩]

/-! ## Faults and refusal -/

/-- R201 to R204: while no fault is recorded, exactly these conditions set `ERR`, each with its code, and nothing but
the code is recorded. -/
def Obligations.FaultsAndTheirCauses : Prop :=
  ∀ (s : State) (c : BitVec 64), s.err = false →
    ∃ t, runCommand c s = .next t ∧
      (t.err = true ∧ t.cause = some .illegalCmd ↔ ∃ e, decode s.hasPhase c = .error e) ∧
      (t.err = true ∧ t.cause = some .badIndex ↔
        ∃ i, decode s.hasPhase c = .ok i ∧
          ((∃ idx data, i = .wrs idx data ∧ 20 < idx.toNat) ∨ (∃ idx, i = .rds idx ∧ 20 < idx.toNat) ∨
            (∃ idx, i = .rdo idx ∧ 19 < idx.toNat) ∨ ∃ d, i = .stepP d ∧ 4 < d.toNat)) ∧
      (t.err = true ∧ t.cause = some .badRot ↔
        decode s.hasPhase c = .ok .stepR ∧ ¬ counterLegal (s.readW rotIndex)) ∧
      (t.err = true → t.cause ≠ none ∧ sameW s t ∧ sameOut s t ∧ t.ph = s.ph ∧ answered s t true 0#32)

/-- R206: what a fault does to the state, whichever fault it is: `ERR` and `CAUSE` are set if no fault is recorded
yet, `W`, `OUT` and `PH` stay, the answer is `rsp(1, 0)`. -/
def Obligations.FaultEntry : Prop :=
  ∀ (f : CmdFault) (s : State), faultedTo f s (raise f s)

/-- R207: a command that answers with the error bit has none of its normal effects. -/
def Obligations.FaultsArePrecise : Prop :=
  ∀ (s : State) (c : BitVec 64), ∃ t r, runCommand c s = .next t ∧ t.responses = s.responses ++ [r] ∧
    (r.e = true → sameW s t ∧ sameOut s t ∧ t.ph = s.ph ∧ samePort s t ∧ r.d = 0#32)

/-- R205: the first check that fires decides: decoding, then refusal, then the index, then the counter; while `ERR = 1`
the outcomes are the same; the spec's example records `ILLEGAL_CMD`. -/
def Obligations.OrderOfChecks : Prop :=
  (∀ (s : State) (c : BitVec 64) (e : Illegal), decode s.hasPhase c = .error e →
    ∃ t, runCommand c s = .next t ∧ faultedTo .illegalCmd s t) ∧
  (∀ (s : State) (c : BitVec 64) (i : Instr), decode s.hasPhase c = .ok i → s.err = true →
    stateChanging i = true → ∃ t, runCommand c s = .next t ∧ refusedTo s t) ∧
  (∀ (s : State) (c : BitVec 64) (i : Instr), decode s.hasPhase c = .ok i → s.err = true →
    ¬ executes i s → ∃ t, runCommand c s = .next t ∧ refusedTo s t) ∧
  (∀ (s : State) (c : BitVec 64) (i : Instr), decode s.hasPhase c = .ok i → s.err = false →
    ¬ executes i s → ∃ t, runCommand c s = .next t ∧ faultedTo (if i = .stepR then .badRot else .badIndex) s t) ∧
  (∀ (s : State) (c : BitVec 64) (e : Illegal), decode s.hasPhase c = .error e → s.err = true →
    ∃ t, runCommand c s = .next t ∧ refusedTo s t) ∧
  ∀ s : State, s.err = false →
    ∃ t, runCommand (word 0x01#8 1#16 200#8 0#32) s = .next t ∧ t.cause = some .illegalCmd

/-- R208: while `ERR = 1` the state-changing commands are refused, and the reads are executed as usual. -/
def Obligations.RefusedWhileFaulted : Prop :=
  ∀ s : State, s.err = true →
    (∀ i, stateChanging i = true → ∃ t, exec i s = .next t ∧ refusedTo s t) ∧
    (∀ idx, idx.toNat ≤ 20 → ∃ t, exec (.rds idx) s = .next t ∧ answered s t false (wAt s idx.toNat)) ∧
    (∀ idx, idx.toNat ≤ 19 → ∃ t, exec (.rdo idx) s = .next t ∧ answered s t false (outAt s idx.toNat)) ∧
    ∃ t, exec .rdst s = .next t ∧ answered s t false (statusWord s)

/-- R209: without a reset no sequence of commands leaves the faulted condition: `W`, `OUT`, `PH`, `ERR` and `CAUSE`
are frozen, every command is answered, and the run has not ended well; a reset ends it. -/
def Obligations.FaultFreezesUntilReset : Prop :=
  ∀ (s : State) (cs : List (BitVec 64)), s.err = true →
    (∃ t, serve (cs.map .command) s = .next t ∧ sameW s t ∧ sameOut s t ∧ t.ph = s.ph ∧ sameFlags s t ∧
      t.port = [] ∧ t.responses.length = s.responses.length + cs.length ∧ ¬ endedWell t) ∧
    ∃ t, serve (cs.map .command ++ [.reset]) s = .next t ∧ t.err = false ∧ t.cause = none ∧ endedWell t

/-- R210: a command that would fault while `ERR = 1` changes nothing: the first cause is kept. -/
def Obligations.FirstCauseIsKept : Prop :=
  ∀ s : State, s.err = true →
    (∀ c e, decode s.hasPhase c = .error e → ∃ t, runCommand c s = .next t ∧ refusedTo s t) ∧
    (∀ idx, 20 < idx.toNat → ∃ t, exec (.rds idx) s = .next t ∧ refusedTo s t) ∧
    (∀ idx, 19 < idx.toNat → ∃ t, exec (.rdo idx) s = .next t ∧ refusedTo s t)

/-! ## The command port -/

/-- R82 with R70: every command presented is taken from the port and answered by exactly one response; the error bit
is 1 exactly when the command was not executed, the data is then 0, and otherwise what the table says. -/
def Obligations.OneResponsePerCommand : Prop :=
  ∀ (s : State) (c : BitVec 64) (rest : List HostEvent), s.port = .command c :: rest →
    ∃ t r, step s = .next t ∧ t.port = rest ∧ t.responses = s.responses ++ [r] ∧
      (r.e = true → r.d = 0#32) ∧
      (r.e = false ↔ ∃ i, decode s.hasPhase c = .ok i ∧ executes i s) ∧
      (∀ i, decode s.hasPhase c = .ok i → executes i s → r.d = answerData i s)

/-- R59, R75, R76: a step with a command word at the port runs that word on the state with it taken from the port, and
nothing else is done around it: a word that decodes is its command's meaning, and one that does not takes `ILLEGAL_CMD`.
That the port is a list is the model's choice (log 1). -/
def Obligations.StepRunsDecodedCommand : Prop :=
  ∀ (s : State) (c : BitVec 64) (rest : List HostEvent), s.port = .command c :: rest →
    step s = runCommand c { s with port := rest } ∧
    (∀ i, decode s.hasPhase c = .ok i → step s = exec i { s with port := rest }) ∧
    ∀ e, decode s.hasPhase c = .error e →
      ∃ t, step s = .next t ∧ faultedTo .illegalCmd { s with port := rest } t

/-- R77: nothing a step does builds or removes the phase unit, so decoding never changes. -/
def Obligations.PhaseUnitIsFixed : Prop :=
  ∀ s : State, ∃ t, step s = .next t ∧ t.hasPhase = s.hasPhase

/-! ## Reset, the cursor and the invariants -/

/-- R40: the state after reset, for both builds: `W[0..19]` and `OUT` hold the parameters `RESET_W` and `RESET_OUT`,
constants nothing is known of. What the port holds is the model's choice (log 1, log 2) and is not stated. -/
def Obligations.ResetStateValues : Prop :=
  (State.reset.ph = some .phase0 ∧ State.reset.err = false ∧ State.reset.cause = none ∧
    wAt State.reset 20 = 0#32) ∧
  ∀ n p r, (State.atReset false n p r).ph = none ∧ (State.atReset true n p r).ph = some .phase0 ∧
    ∀ b, (State.atReset b n p r).err = false ∧ (State.atReset b n p r).cause = none ∧
      wAt (State.atReset b n p r) 20 = 0#32 ∧
      (∀ k, k < 20 → wAt (State.atReset b n p r) k = Config.resetW n k) ∧
      ∀ k, k < 20 → outAt (State.atReset b n p r) k = Config.resetOut n k

/-- R230: reset, from any state, leaves what power-on leaves, with the build kept: `PH`, `ERR`, `CAUSE` and `W[20]` are 0,
`W[0..19]` and `OUT` hold the parameters; the block then idles with nothing presented, and executes commands. A step
that serves no reset clears neither `ERR` nor `CAUSE`, and sets `PH` to no chosen value: it keeps it or advances it by
one modulo 5. -/
def Obligations.ResetClearsFault : Prop :=
  (∀ (s : State) (rest : List HostEvent), s.port = .reset :: rest →
    ∃ t, step s = .next t ∧ t.hasPhase = s.hasPhase ∧ (s.hasPhase = true → t.ph = some .phase0) ∧
      t.err = false ∧ t.cause = none ∧ wAt t 20 = 0#32 ∧
      (∀ k, k < 20 → wAt t k = Config.resetW t.resets k ∧ outAt t k = Config.resetOut t.resets k) ∧
      (t.port = [] → step t = .next t) ∧
      ∀ i, i = .stepS ∨ i = .stepR ∨ i = .stepU → ∃ u, exec i t = .next u ∧ u.err = false) ∧
  ∀ s t : State, step s = .next t →
    (∃ rest, s.port = .reset :: rest ∨ ∃ c, s.port = .resetDuring c :: rest) ∨
    ((s.err = true → t.err = true) ∧ (s.cause ≠ none → t.cause ≠ none) ∧
      (t.ph = s.ph ∨ ∃ k k' : Phase, s.ph = some k ∧ t.ph = some k' ∧ k'.number.val = (k.number.val + 1) % 5))

/-- From R231: reset while a command is being executed: the reset state in any case; no effect of the command is seen
but, perhaps, its response. The model's choices, which no rule states: a reset, of either kind, leaves the port's other
events and the earlier responses alone, and a response delivered is the one the command would have had (log 8); `W` and
`OUT` get the values a reset between commands gives them (log 3). -/
def Obligations.ResetAbandonsCommand : Prop :=
  ∀ (s : State) (c : BitVec 64) (rest : List HostEvent), s.port = .resetDuring c :: rest →
    ∃ t u r, step s = .next t ∧ step { s with port := .reset :: rest } = .next u ∧
      u.port = rest ∧ u.responses = s.responses ∧
      sameW u t ∧ sameOut u t ∧ t.ph = u.ph ∧ sameFlags u t ∧ samePort u t ∧
      t.err = false ∧ t.cause = none ∧ wAt t 20 = 0#32 ∧
      (∃ v, runCommand c { s with port := rest } = .next v ∧ v.responses = s.responses ++ [r]) ∧
      (t.responses = s.responses ∨ t.responses = s.responses ++ [r])

/-- R38 (b) (the spec's own inference): the state after reset has `ERR = 0` if and only if `CAUSE = 0`, and a legal counter. -/
def Obligations.ResetMeetsInvariant : Prop :=
  flagsAgree State.reset ∧ counterLegal (State.reset.readW rotIndex)

/-- R38 (b) (the spec's own inference): every step keeps `ERR = 0` if and only if `CAUSE = 0`. -/
def Obligations.EveryStepKeepsFlagsAgreeing : Prop :=
  ∀ s : State, flagsAgree s → ∃ t, step s = .next t ∧ flagsAgree t

/-- R38 (d) (the spec's own inference): if the host never writes an illegal value to `W[20]`, every step keeps the counter legal. -/
def Obligations.EveryStepKeepsCounterLegal : Prop :=
  ∀ s : State, counterLegal (s.readW rotIndex) →
    (∀ c rest i, s.port = .command c :: rest → decode s.hasPhase c = .ok i → keepsCounterLegal i) →
    ∃ t, step s = .next t ∧ counterLegal (t.readW rotIndex)

/-- R168: the life of the cursor: reset sets it to 0; then it is the number of completed `STEP.P` commands modulo 5,
whatever other commands came between them; the host reads it in `STATUS[6:4]`. -/
def Obligations.CursorCountsCompletedPhases : Prop :=
  (∀ (s : State) (rest : List HostEvent), s.hasPhase = true → s.port = .reset :: rest →
    ∃ t, step s = .next t ∧ t.ph = some .phase0) ∧
  ∀ (cs : List Instr) (s : State) (k : Phase), s.ph = some k →
    ∃ t k' u d, execAll cs s = .next t ∧ t.ph = some k' ∧
      k'.number.val = (k.number.val + completedPhases cs s) % 5 ∧
      exec .rdst t = .next u ∧ answered t u false d ∧ d.extractLsb' 4 3 = BitVec.ofNat 3 k'.number.val

/-- Of R168: only a completed `STEP.P` changes the cursor, always by one modulo 5. -/
def Obligations.OnlyStepPMovesCursor : Prop :=
  ∀ (i : Instr) (s : State), ∃ t, exec i s = .next t ∧
    (isStepP i = false ∨ ¬ executes i s → t.ph = s.ph) ∧
    (∀ k, isStepP i = true → executes i s → s.ph = some k →
      ∃ k', t.ph = some k' ∧ k'.number.val = (k.number.val + 1) % 5)

/-! ## Encodings -/

/-- R71 to R75: decoding the word of a command the block has gives the command back, with every operand. -/
def Obligations.DecodeOfEncode : Prop :=
  ∀ (hasPhase : Bool) (i : Instr), i.wellFormed hasPhase = true → decode hasPhase (encode i) = .ok i

/-- R74: each word that decodes is the one word of its command. -/
def Obligations.EncodeOfDecode : Prop :=
  ∀ (hasPhase : Bool) (c : BitVec 64) (i : Instr), decode hasPhase c = .ok i →
    encode i = c ∧ i.wellFormed hasPhase = true

/-- R74: a word is the command of a row exactly when `(C AND mask) = match` (`STEP.P` only when `HAS_PHASE`), the rows
are disjoint, a word that matches no row is illegal, and each row's format and opcode are the table's; bit 4 of the
opcode tells the step group from the host access group. -/
def Obligations.DecodeIsOpcodeMap : Prop :=
  (∀ r ∈ opcodeRows, ∀ (hasPhase : Bool) (c : BitVec 64),
    (∃ i, decode hasPhase c = .ok i ∧ i.mnemonic = r.mnemonic) ↔
      c &&& r.mask = r.value ∧ (r.mnemonic = .stepP → hasPhase = true)) ∧
  (∀ r ∈ opcodeRows, ∀ r' ∈ opcodeRows, ∀ c : BitVec 64,
    c &&& r.mask = r.value → c &&& r'.mask = r'.value → r = r') ∧
  (∀ (hasPhase : Bool) (c : BitVec 64), (∀ r ∈ opcodeRows, c &&& r.mask ≠ r.value) →
    ∃ e, decode hasPhase c = .error e) ∧
  ∀ r ∈ opcodeRows, r.mnemonic.format = r.format ∧ r.mnemonic.opcode = r.op ∧ r.value = r.op ++ 0#56 ∧
    (r.op.getLsbD 4 = true ↔ r.mnemonic ∈ [.stepS, .stepR, .stepU, .stepP])

/-- R76: every illegal word raises `ILLEGAL_CMD` and has no other effect, the all-zero and the all-ones word among
them. -/
def Obligations.IllegalWordsFault : Prop :=
  ∀ (s : State) (op : BitVec 8) (rsv : BitVec 16) (idx : BitVec 8) (data : Word),
    op ∉ [0x01#8, 0x02#8, 0x03#8, 0x04#8, 0x10#8, 0x11#8, 0x12#8, 0x13#8] ∨ rsv ≠ 0#16 ∨
      (op ∈ [0x04#8, 0x10#8, 0x11#8, 0x12#8] ∧ (idx ≠ 0#8 ∨ data ≠ 0#32)) ∨
      (op ∈ [0x02#8, 0x03#8, 0x13#8] ∧ data ≠ 0#32) ∨ (op = 0x13#8 ∧ s.hasPhase = false) ↔
    (∃ e, decode s.hasPhase (word op rsv idx data) = .error e) ∧
      ∃ t, runCommand (word op rsv idx data) s = .next t ∧ faultedTo .illegalCmd s t

/-- R71, R74: a few words written out from the spec's encodings decode to the commands they stand for. -/
def Obligations.SampleWordsDecode : Prop :=
  decode true 0x0100001400000005#64 = .ok (.wrs 20#8 5#32) ∧
  decode true 0x0200001400000000#64 = .ok (.rds 20#8) ∧
  decode true 0x0300001300000000#64 = .ok (.rdo 19#8) ∧
  decode true 0x0400000000000000#64 = .ok .rdst ∧
  decode true 0x1000000000000000#64 = .ok .stepS ∧
  decode true 0x1100000000000000#64 = .ok .stepR ∧
  decode true 0x1200000000000000#64 = .ok .stepU ∧
  decode true 0x1300000400000000#64 = .ok (.stepP 4#8)

/-- R56: the byte view of a word and the 128-bit view of a vector, little endian. -/
def Obligations.LittleEndianViews : Prop :=
  (∀ (v : Word) (n : Fin 4) (b : Nat), b < 8 → (wordByte v n).getLsbD b = v.getLsbD (8 * n.val + b)) ∧
  (∀ v : Word, wordOfBytes (wordByte v) = v) ∧
  (∀ (x : Lanes) (j : Lane), x.toBits.extractLsb' (32 * j.val) 32 = x.lane j) ∧
  ∀ x : Lanes, Lanes.ofBits x.toBits = x

/-- R83: the spec's two examples, a comment line, and an operand that does not fit its field. -/
def Obligations.AssemblerExamples : Prop :=
  assembleLine "WRS 4, 0x00000005" = some [0x0100000400000005#64] ∧
  assembleLine "STEP.P 3" = some [0x1300000300000000#64] ∧
  assembleLine "# a comment" = some [] ∧
  assembleLine "WRS 21, 0" = some [0x0100001500000000#64] ∧
  assembleLine "RDS 256" = none ∧ assembleLine "WRS 0, 0x100000000" = none
end

