-- ==== Sys2Proof/Laws/Decode.lean ====
section
/-! SUPPORT. The fields of a command word, and the opcode map read both ways. -/

namespace Sys2Proof

/-- A word made of four fields, bit by bit. -/
theorem getLsbD_fields (op : BitVec 8) (rsv : BitVec 16) (idx : BitVec 8) (data : Word) (n : Nat) :
    (op ++ rsv ++ idx ++ data : BitVec 64).getLsbD n =
      if n < 32 then data.getLsbD n
      else if n < 40 then idx.getLsbD (n - 32)
      else if n < 56 then rsv.getLsbD (n - 40)
      else op.getLsbD (n - 56) := by
  simp only [BitVec.getLsbD_append, Nat.sub_sub]
  split
  · rfl
  · by_cases h1 : n < 40
    · simp [h1, show n - 32 < 8 by omega]
    · by_cases h2 : n < 56
      · simp [h1, h2, show ¬ n - 32 < 8 by omega, show n - 40 < 16 by omega]
      · simp [h1, h2, show ¬ n - 32 < 8 by omega, show ¬ n - 40 < 16 by omega]

@[simp] theorem opField_fields (op : BitVec 8) (rsv : BitVec 16) (idx : BitVec 8) (data : Word) :
    opField (op ++ rsv ++ idx ++ data) = op := by
  apply BitVec.eq_of_getLsbD_eq
  intro n hn
  simp only [opField, BitVec.getLsbD_extractLsb', getLsbD_fields]
  simp [hn, show ¬ 56 + n < 32 by omega, show ¬ 56 + n < 40 by omega]

@[simp] theorem rsvField_fields (op : BitVec 8) (rsv : BitVec 16) (idx : BitVec 8) (data : Word) :
    rsvField (op ++ rsv ++ idx ++ data) = rsv := by
  apply BitVec.eq_of_getLsbD_eq
  intro n hn
  simp only [rsvField, BitVec.getLsbD_extractLsb', getLsbD_fields]
  simp [hn, show ¬ 40 + n < 32 by omega, show 40 + n < 56 by omega]

@[simp] theorem idxField_fields (op : BitVec 8) (rsv : BitVec 16) (idx : BitVec 8) (data : Word) :
    idxField (op ++ rsv ++ idx ++ data) = idx := by
  apply BitVec.eq_of_getLsbD_eq
  intro n hn
  simp only [idxField, BitVec.getLsbD_extractLsb', getLsbD_fields]
  simp [hn, show 32 + n < 40 by omega]

@[simp] theorem dataField_fields (op : BitVec 8) (rsv : BitVec 16) (idx : BitVec 8) (data : Word) :
    dataField (op ++ rsv ++ idx ++ data) = data := by
  apply BitVec.eq_of_getLsbD_eq
  intro n hn
  simp only [dataField, BitVec.getLsbD_extractLsb', getLsbD_fields]
  simp [hn]

/-- A command word is its four fields (30_encoding.md R71). -/
theorem fields_eq (c : BitVec 64) : opField c ++ rsvField c ++ idxField c ++ dataField c = c := by
  apply BitVec.eq_of_getLsbD_eq
  intro n hn
  rw [getLsbD_fields]
  simp only [opField, rsvField, idxField, dataField, BitVec.getLsbD_extractLsb']
  split
  · simp [*]
  · split
    · simp [show n - 32 < 8 by omega, show 32 + (n - 32) = n by omega]
    · split
      · simp [show n - 40 < 16 by omega, show 40 + (n - 40) = n by omega]
      · simp [show n - 56 < 8 by omega, show 56 + (n - 56) = n by omega]

@[simp] theorem opField_encode (i : Instr) : opField (encode i) = i.mnemonic.opcode := opField_fields ..
@[simp] theorem rsvField_encode (i : Instr) : rsvField (encode i) = 0#16 := rsvField_fields ..
@[simp] theorem idxField_encode (i : Instr) : idxField (encode i) = i.idx := idxField_fields ..
@[simp] theorem dataField_encode (i : Instr) : dataField (encode i) = i.data := dataField_fields ..

@[simp] theorem ofOpcode_opcode (m : Mnemonic) : Mnemonic.ofOpcode m.opcode = some m := by
  cases m <;> decide

/-- The opcode map has one row for each of its opcodes. -/
theorem ofOpcode_eq_some {op : BitVec 8} {m : Mnemonic} (h : Mnemonic.ofOpcode op = some m) : op = m.opcode := by
  have := List.find?_some h
  exact (by simpa using this : m.opcode = op).symm

/-- An opcode that is no row's is none of the eight values. -/
theorem ofOpcode_eq_none {op : BitVec 8} (h : Mnemonic.ofOpcode op = none) (m : Mnemonic) : op ≠ m.opcode := by
  intro e
  subst e
  simp at h

/-- The decoder on a word made of four fields (30_encoding.md R75). -/
theorem decode_fields (hasPhase : Bool) (op : BitVec 8) (rsv : BitVec 16) (idx : BitVec 8) (data : Word) :
    decode hasPhase (op ++ rsv ++ idx ++ data) =
      if rsv ≠ 0#16 then .error .rsvNonzero
      else
        match Mnemonic.ofOpcode op with
        | none => .error .unknownOp
        | some m =>
          if m.format = .Z ∧ idx ≠ 0#8 then .error .idxNonzero
          else if m.format ≠ .D ∧ data ≠ 0#32 then .error .dataNonzero
          else if m = .stepP ∧ hasPhase = false then .error .phaseUnitAbsent
          else .ok (m.command idx data) := by
  simp [decode] <;> rfl

@[simp] theorem mnemonic_command (m : Mnemonic) (idx : BitVec 8) (data : Word) :
    (m.command idx data).mnemonic = m := by
  cases m <;> rfl

/-- What the decoder accepts (30_encoding.md R75). -/
theorem decode_eq_ok {hasPhase : Bool} {c : BitVec 64} {i : Instr} :
    decode hasPhase c = .ok i ↔
      ∃ m : Mnemonic, rsvField c = 0#16 ∧ opField c = m.opcode ∧ (m.format = .Z → idxField c = 0#8) ∧
        (m.format ≠ .D → dataField c = 0#32) ∧ (m = .stepP → hasPhase = true) ∧
        i = m.command (idxField c) (dataField c) := by
  constructor
  · intro h
    unfold decode at h
    split at h
    · cases h
    split at h
    · cases h
    rename_i m hm
    split at h
    · cases h
    split at h
    · cases h
    split at h
    · cases h
    cases h
    refine ⟨m, by simp_all, ofOpcode_eq_some hm, by simp_all, by simp_all, by simp_all, rfl⟩
  · rintro ⟨m, hr, ho, hz, hd, hp, rfl⟩
    unfold decode
    rw [if_neg (by simp [hr]), ho, ofOpcode_opcode]
    simp only
    rw [if_neg (by rintro ⟨a, b⟩; exact b (hz a)), if_neg (by rintro ⟨a, b⟩; exact b (hd a)),
      if_neg (by rintro ⟨a, b⟩; simp [hp a] at b)]

end Sys2Proof
end

