-- ==== Sys2Proof/Laws/Recurrence.lean ====
section
/-! SUPPORT. The recurrence, one equation per function. -/

namespace Sys2Proof.Machine

@[simp] theorem laneStep_window (a : Window) :
    (laneStep a).1 = ⟨a.s1, a.s2, a.s3, a.s4, xsV a.s4 (xsT a.s0)⟩ := rfl

@[simp] theorem laneStep_output (a : Window) : (laneStep a).2 = xsOut a.s2 (xsV a.s4 (xsT a.s0)) := rfl

@[simp] theorem laneSteps_zero (a : Window) : laneSteps 0 a = a := rfl

theorem laneSteps_succ (n : Nat) (a : Window) : laneSteps (n + 1) a = laneSteps n (laneStep a).1 := rfl

/-- The last of `n + 1` steps can be taken last. -/
theorem laneSteps_succ' (n : Nat) (a : Window) : laneSteps (n + 1) a = (laneStep (laneSteps n a)).1 := by
  induction n generalizing a with
  | zero => rfl
  | succ n ih => rw [laneSteps_succ, ih, laneSteps_succ]

theorem laneOutput_zero (a : Window) : laneOutput 0 a = (laneStep a).2 := rfl

theorem laneOutput_succ (n : Nat) (a : Window) : laneOutput (n + 1) a = laneOutput n (laneStep a).1 := rfl

theorem laneSteps_add (m n : Nat) (a : Window) : laneSteps (m + n) a = laneSteps n (laneSteps m a) := by
  induction m generalizing a with
  | zero => simp
  | succ m ih => rw [show m + 1 + n = (m + n) + 1 by omega, laneSteps_succ, ih, laneSteps_succ]

theorem laneOutput_add (m n : Nat) (a : Window) : laneOutput (m + n) a = laneOutput n (laneSteps m a) := by
  simp [laneOutput, laneSteps_add]

end Sys2Proof.Machine
end

