-- ==== Sys2Proof/Laws/State.lean ====
section
/-! SUPPORT. One lemma per field per update of State, so that no proof unfolds a record update; and the
reads after the writes of the two files. -/

namespace Sys2Proof.Machine

@[simp] theorem writeW_w (s : State) (i : Fin 21) (v : Word) : (s.writeW i v).w = s.w.set i.val v := rfl
@[simp] theorem writeW_out (s : State) (i : Fin 21) (v : Word) : (s.writeW i v).out = s.out := rfl
@[simp] theorem writeW_ph (s : State) (i : Fin 21) (v : Word) : (s.writeW i v).ph = s.ph := rfl
@[simp] theorem writeW_err (s : State) (i : Fin 21) (v : Word) : (s.writeW i v).err = s.err := rfl
@[simp] theorem writeW_cause (s : State) (i : Fin 21) (v : Word) : (s.writeW i v).cause = s.cause := rfl
@[simp] theorem writeW_port (s : State) (i : Fin 21) (v : Word) : (s.writeW i v).port = s.port := rfl
@[simp] theorem writeW_responses (s : State) (i : Fin 21) (v : Word) : (s.writeW i v).responses = s.responses := rfl
@[simp] theorem writeW_resets (s : State) (i : Fin 21) (v : Word) : (s.writeW i v).resets = s.resets := rfl

@[simp] theorem writeOut_w (s : State) (i : Fin 20) (v : Word) : (s.writeOut i v).w = s.w := rfl
@[simp] theorem writeOut_out (s : State) (i : Fin 20) (v : Word) : (s.writeOut i v).out = s.out.set i.val v := rfl
@[simp] theorem writeOut_ph (s : State) (i : Fin 20) (v : Word) : (s.writeOut i v).ph = s.ph := rfl
@[simp] theorem writeOut_err (s : State) (i : Fin 20) (v : Word) : (s.writeOut i v).err = s.err := rfl
@[simp] theorem writeOut_cause (s : State) (i : Fin 20) (v : Word) : (s.writeOut i v).cause = s.cause := rfl
@[simp] theorem writeOut_port (s : State) (i : Fin 20) (v : Word) : (s.writeOut i v).port = s.port := rfl
@[simp] theorem writeOut_responses (s : State) (i : Fin 20) (v : Word) : (s.writeOut i v).responses = s.responses := rfl
@[simp] theorem writeOut_resets (s : State) (i : Fin 20) (v : Word) : (s.writeOut i v).resets = s.resets := rfl

@[simp] theorem respond_w (s : State) (e : Bool) (d : Word) : (s.respond e d).w = s.w := rfl
@[simp] theorem respond_out (s : State) (e : Bool) (d : Word) : (s.respond e d).out = s.out := rfl
@[simp] theorem respond_ph (s : State) (e : Bool) (d : Word) : (s.respond e d).ph = s.ph := rfl
@[simp] theorem respond_err (s : State) (e : Bool) (d : Word) : (s.respond e d).err = s.err := rfl
@[simp] theorem respond_cause (s : State) (e : Bool) (d : Word) : (s.respond e d).cause = s.cause := rfl
@[simp] theorem respond_port (s : State) (e : Bool) (d : Word) : (s.respond e d).port = s.port := rfl
@[simp] theorem respond_responses (s : State) (e : Bool) (d : Word) : (s.respond e d).responses = s.responses ++ [⟨e, d⟩] := rfl
@[simp] theorem respond_resets (s : State) (e : Bool) (d : Word) : (s.respond e d).resets = s.resets := rfl

@[simp] theorem setPh_w (s : State) (k : Phase) : (s.setPh k).w = s.w := rfl
@[simp] theorem setPh_out (s : State) (k : Phase) : (s.setPh k).out = s.out := rfl
@[simp] theorem setPh_ph (s : State) (k : Phase) : (s.setPh k).ph = some k := rfl
@[simp] theorem setPh_err (s : State) (k : Phase) : (s.setPh k).err = s.err := rfl
@[simp] theorem setPh_cause (s : State) (k : Phase) : (s.setPh k).cause = s.cause := rfl
@[simp] theorem setPh_port (s : State) (k : Phase) : (s.setPh k).port = s.port := rfl
@[simp] theorem setPh_responses (s : State) (k : Phase) : (s.setPh k).responses = s.responses := rfl
@[simp] theorem setPh_resets (s : State) (k : Phase) : (s.setPh k).resets = s.resets := rfl

@[simp] theorem refuse_w (s : State) : (refuse s).w = s.w := rfl
@[simp] theorem refuse_out (s : State) : (refuse s).out = s.out := rfl
@[simp] theorem refuse_ph (s : State) : (refuse s).ph = s.ph := rfl
@[simp] theorem refuse_err (s : State) : (refuse s).err = s.err := rfl
@[simp] theorem refuse_cause (s : State) : (refuse s).cause = s.cause := rfl
@[simp] theorem refuse_port (s : State) : (refuse s).port = s.port := rfl
@[simp] theorem refuse_responses (s : State) : (refuse s).responses = s.responses ++ [⟨true, 0#32⟩] := rfl
@[simp] theorem refuse_resets (s : State) : (refuse s).resets = s.resets := rfl

@[simp] theorem presentNext_w (s : State) (c : BitVec 64) : (s.presentNext c).w = s.w := rfl
@[simp] theorem presentNext_out (s : State) (c : BitVec 64) : (s.presentNext c).out = s.out := rfl
@[simp] theorem presentNext_ph (s : State) (c : BitVec 64) : (s.presentNext c).ph = s.ph := rfl
@[simp] theorem presentNext_err (s : State) (c : BitVec 64) : (s.presentNext c).err = s.err := rfl
@[simp] theorem presentNext_cause (s : State) (c : BitVec 64) : (s.presentNext c).cause = s.cause := rfl
@[simp] theorem presentNext_port (s : State) (c : BitVec 64) : (s.presentNext c).port = .command c :: s.port := rfl
@[simp] theorem presentNext_responses (s : State) (c : BitVec 64) : (s.presentNext c).responses = s.responses := rfl
@[simp] theorem presentNext_resets (s : State) (c : BitVec 64) : (s.presentNext c).resets = s.resets := rfl

@[simp] theorem vstore_out (s : State) (q : Slot) (x : Lanes) : (s.vstore q x).out = s.out := rfl
@[simp] theorem vstore_ph (s : State) (q : Slot) (x : Lanes) : (s.vstore q x).ph = s.ph := rfl
@[simp] theorem vstore_err (s : State) (q : Slot) (x : Lanes) : (s.vstore q x).err = s.err := rfl
@[simp] theorem vstore_cause (s : State) (q : Slot) (x : Lanes) : (s.vstore q x).cause = s.cause := rfl
@[simp] theorem vstore_port (s : State) (q : Slot) (x : Lanes) : (s.vstore q x).port = s.port := rfl
@[simp] theorem vstore_responses (s : State) (q : Slot) (x : Lanes) : (s.vstore q x).responses = s.responses := rfl
@[simp] theorem vstore_resets (s : State) (q : Slot) (x : Lanes) : (s.vstore q x).resets = s.resets := rfl

@[simp] theorem vout_w (s : State) (d : Slot) (x : Lanes) : (s.vout d x).w = s.w := rfl
@[simp] theorem vout_ph (s : State) (d : Slot) (x : Lanes) : (s.vout d x).ph = s.ph := rfl
@[simp] theorem vout_err (s : State) (d : Slot) (x : Lanes) : (s.vout d x).err = s.err := rfl
@[simp] theorem vout_cause (s : State) (d : Slot) (x : Lanes) : (s.vout d x).cause = s.cause := rfl
@[simp] theorem vout_port (s : State) (d : Slot) (x : Lanes) : (s.vout d x).port = s.port := rfl
@[simp] theorem vout_responses (s : State) (d : Slot) (x : Lanes) : (s.vout d x).responses = s.responses := rfl
@[simp] theorem vout_resets (s : State) (d : Slot) (x : Lanes) : (s.vout d x).resets = s.resets := rfl

@[simp] theorem writeScalarWindow_out (s : State) (n : Window) : (s.writeScalarWindow n).out = s.out := rfl
@[simp] theorem writeScalarWindow_ph (s : State) (n : Window) : (s.writeScalarWindow n).ph = s.ph := rfl
@[simp] theorem writeScalarWindow_err (s : State) (n : Window) : (s.writeScalarWindow n).err = s.err := rfl
@[simp] theorem writeScalarWindow_cause (s : State) (n : Window) : (s.writeScalarWindow n).cause = s.cause := rfl
@[simp] theorem writeScalarWindow_port (s : State) (n : Window) : (s.writeScalarWindow n).port = s.port := rfl
@[simp] theorem writeScalarWindow_responses (s : State) (n : Window) : (s.writeScalarWindow n).responses = s.responses := rfl
@[simp] theorem writeScalarWindow_resets (s : State) (n : Window) : (s.writeScalarWindow n).resets = s.resets := rfl

@[simp] theorem vectorStep_ph (s : State) (row : RoundRow) (d : Slot) : (vectorStep s row d).ph = s.ph := rfl
@[simp] theorem vectorStep_err (s : State) (row : RoundRow) (d : Slot) : (vectorStep s row d).err = s.err := rfl
@[simp] theorem vectorStep_cause (s : State) (row : RoundRow) (d : Slot) : (vectorStep s row d).cause = s.cause := rfl
@[simp] theorem vectorStep_port (s : State) (row : RoundRow) (d : Slot) : (vectorStep s row d).port = s.port := rfl
@[simp] theorem vectorStep_responses (s : State) (row : RoundRow) (d : Slot) : (vectorStep s row d).responses = s.responses := rfl
@[simp] theorem vectorStep_resets (s : State) (row : RoundRow) (d : Slot) : (vectorStep s row d).resets = s.resets := rfl

@[simp] theorem round_ph (s : State) (k : Phase) (d : Slot) : (roundOp k d s).ph = s.ph := rfl
@[simp] theorem round_err (s : State) (k : Phase) (d : Slot) : (roundOp k d s).err = s.err := rfl
@[simp] theorem round_cause (s : State) (k : Phase) (d : Slot) : (roundOp k d s).cause = s.cause := rfl
@[simp] theorem round_port (s : State) (k : Phase) (d : Slot) : (roundOp k d s).port = s.port := rfl
@[simp] theorem round_responses (s : State) (k : Phase) (d : Slot) : (roundOp k d s).responses = s.responses := rfl
@[simp] theorem round_resets (s : State) (k : Phase) (d : Slot) : (roundOp k d s).resets = s.resets := rfl

@[simp] theorem fiveRounds_ph (s : State) : (fiveRounds s).ph = s.ph := by simp [fiveRounds]
@[simp] theorem fiveRounds_err (s : State) : (fiveRounds s).err = s.err := by simp [fiveRounds]
@[simp] theorem fiveRounds_cause (s : State) : (fiveRounds s).cause = s.cause := by simp [fiveRounds]
@[simp] theorem fiveRounds_port (s : State) : (fiveRounds s).port = s.port := by simp [fiveRounds]
@[simp] theorem fiveRounds_responses (s : State) : (fiveRounds s).responses = s.responses := by simp [fiveRounds]
@[simp] theorem fiveRounds_resets (s : State) : (fiveRounds s).resets = s.resets := by simp [fiveRounds]

@[simp] theorem assertReset_w (s : State) : s.assertReset.w = resetWords (s.resets + 1) := rfl
@[simp] theorem assertReset_out (s : State) : s.assertReset.out = resetOutputs (s.resets + 1) := rfl
@[simp] theorem assertReset_err (s : State) : s.assertReset.err = false := rfl
@[simp] theorem assertReset_cause (s : State) : s.assertReset.cause = none := rfl
@[simp] theorem assertReset_port (s : State) : s.assertReset.port = s.port := rfl
@[simp] theorem assertReset_responses (s : State) : s.assertReset.responses = s.responses := rfl
@[simp] theorem assertReset_resets (s : State) : s.assertReset.resets = s.resets + 1 := rfl

@[simp] theorem recordFault_w (s : State) (f : CmdFault) : (s.recordFault f).w = s.w := by
  unfold State.recordFault; split <;> rfl
@[simp] theorem recordFault_out (s : State) (f : CmdFault) : (s.recordFault f).out = s.out := by
  unfold State.recordFault; split <;> rfl
@[simp] theorem recordFault_ph (s : State) (f : CmdFault) : (s.recordFault f).ph = s.ph := by
  unfold State.recordFault; split <;> rfl
@[simp] theorem recordFault_port (s : State) (f : CmdFault) : (s.recordFault f).port = s.port := by
  unfold State.recordFault; split <;> rfl
@[simp] theorem recordFault_responses (s : State) (f : CmdFault) : (s.recordFault f).responses = s.responses := by
  unfold State.recordFault; split <;> rfl
@[simp] theorem recordFault_resets (s : State) (f : CmdFault) : (s.recordFault f).resets = s.resets := by
  unfold State.recordFault; split <;> rfl
@[simp] theorem recordFault_err (s : State) (f : CmdFault) : (s.recordFault f).err = true := by
  unfold State.recordFault; split <;> simp_all
@[simp] theorem recordFault_cause (s : State) (f : CmdFault) :
    (s.recordFault f).cause = if s.err then s.cause else some f := by
  unfold State.recordFault; split <;> rfl

@[simp] theorem raise_w (s : State) (f : CmdFault) : (raise f s).w = s.w := by simp [raise]
@[simp] theorem raise_out (s : State) (f : CmdFault) : (raise f s).out = s.out := by simp [raise]
@[simp] theorem raise_ph (s : State) (f : CmdFault) : (raise f s).ph = s.ph := by simp [raise]
@[simp] theorem raise_err (s : State) (f : CmdFault) : (raise f s).err = true := by simp [raise]
@[simp] theorem raise_cause (s : State) (f : CmdFault) :
    (raise f s).cause = if s.err then s.cause else some f := by simp [raise]
@[simp] theorem raise_port (s : State) (f : CmdFault) : (raise f s).port = s.port := by simp [raise]
@[simp] theorem raise_responses (s : State) (f : CmdFault) :
    (raise f s).responses = s.responses ++ [⟨true, 0#32⟩] := by simp [raise]
@[simp] theorem raise_resets (s : State) (f : CmdFault) : (raise f s).resets = s.resets := by simp [raise]

@[simp] theorem runPhase_out_free_fields (s : State) (k : Phase) (d : Slot) :
    (runPhase k d s).err = s.err ∧ (runPhase k d s).cause = s.cause ∧ (runPhase k d s).port = s.port ∧
      (runPhase k d s).responses = s.responses ∧ (runPhase k d s).resets = s.resets := by
  cases k <;> exact ⟨rfl, rfl, rfl, rfl, rfl⟩

@[simp] theorem hasPhase_eq (s : State) : s.hasPhase = s.ph.isSome := rfl

theorem assertReset_ph (s : State) : s.assertReset.ph = s.ph.map fun _ => .phase0 := by
  cases h : s.ph <;> simp [State.assertReset, State.atReset, h]

/-! Reads see the files and nothing else. -/

theorem readW_congr {s t : State} (h : t.w = s.w) (i : Fin 21) : t.readW i = s.readW i := by
  simp [State.readW, h]

theorem readOut_congr {s t : State} (h : t.out = s.out) (i : Fin 20) : t.readOut i = s.readOut i := by
  simp [State.readOut, h]

@[simp] theorem readW_writeOut (s : State) (i : Fin 20) (v : Word) (k : Fin 21) :
    (s.writeOut i v).readW k = s.readW k := rfl
@[simp] theorem readW_vout (s : State) (d : Slot) (x : Lanes) (k : Fin 21) : (s.vout d x).readW k = s.readW k := rfl
@[simp] theorem readW_respond (s : State) (e : Bool) (d : Word) (k : Fin 21) :
    (s.respond e d).readW k = s.readW k := rfl
@[simp] theorem readW_setPh (s : State) (p : Phase) (k : Fin 21) : (s.setPh p).readW k = s.readW k := rfl
@[simp] theorem readW_raise (s : State) (f : CmdFault) (k : Fin 21) : (raise f s).readW k = s.readW k :=
  readW_congr (raise_w s f) k
@[simp] theorem readW_refuse (s : State) (k : Fin 21) : (refuse s).readW k = s.readW k := rfl

@[simp] theorem readOut_writeW (s : State) (i : Fin 21) (v : Word) (k : Fin 20) :
    (s.writeW i v).readOut k = s.readOut k := rfl
@[simp] theorem readOut_vstore (s : State) (q : Slot) (x : Lanes) (k : Fin 20) :
    (s.vstore q x).readOut k = s.readOut k := rfl
@[simp] theorem readOut_writeScalarWindow (s : State) (n : Window) (k : Fin 20) :
    (s.writeScalarWindow n).readOut k = s.readOut k := rfl
@[simp] theorem readOut_respond (s : State) (e : Bool) (d : Word) (k : Fin 20) :
    (s.respond e d).readOut k = s.readOut k := rfl
@[simp] theorem readOut_setPh (s : State) (p : Phase) (k : Fin 20) : (s.setPh p).readOut k = s.readOut k := rfl
@[simp] theorem readOut_raise (s : State) (f : CmdFault) (k : Fin 20) : (raise f s).readOut k = s.readOut k :=
  readOut_congr (raise_out s f) k
@[simp] theorem readOut_refuse (s : State) (k : Fin 20) : (refuse s).readOut k = s.readOut k := rfl

/-! A read after a write: the value at the place written, the old value everywhere else. -/

theorem readW_writeW (s : State) (i k : Fin 21) (v : Word) :
    (s.writeW i v).readW k = if k = i then v else s.readW k := by
  simp only [State.readW, State.writeW, Vector.getElem_set, Fin.ext_iff]
  split <;> split <;> simp_all

@[simp] theorem readW_writeW_same (s : State) (i : Fin 21) (v : Word) : (s.writeW i v).readW i = v := by
  simp [readW_writeW]

theorem readW_writeW_other {s : State} {i k : Fin 21} (h : k ≠ i) (v : Word) :
    (s.writeW i v).readW k = s.readW k := by
  simp [readW_writeW, h]

theorem readOut_writeOut (s : State) (i k : Fin 20) (v : Word) :
    (s.writeOut i v).readOut k = if k = i then v else s.readOut k := by
  simp only [State.readOut, State.writeOut, Vector.getElem_set, Fin.ext_iff]
  split <;> split <;> simp_all

@[simp] theorem readOut_writeOut_same (s : State) (i : Fin 20) (v : Word) : (s.writeOut i v).readOut i = v := by
  simp [readOut_writeOut]

/-- Two states with the same words in `W` have the same `W`. -/
theorem w_ext {s t : State} (h : ∀ k, t.readW k = s.readW k) : t.w = s.w := by
  apply Vector.ext
  intro i hi
  exact h ⟨i, hi⟩

/-- Two states with the same words in `OUT` have the same `OUT`. -/
theorem out_ext {s t : State} (h : ∀ k, t.readOut k = s.readOut k) : t.out = s.out := by
  apply Vector.ext
  intro i hi
  exact h ⟨i, hi⟩

end Sys2Proof.Machine
end

