-- ==== Sys2Proof/Laws/Rounds.lean ====
section
/-! SUPPORT. Slots, lanes and rounds: what a vector access reads and writes, and what a vector step does to
every word. -/

namespace Sys2Proof

@[simp] theorem Lanes.lane_ofFn (f : Lane → Word) (j : Lane) : (Lanes.ofFn f).lane j = f j := by
  fin_cases j <;> rfl

@[simp] theorem Lanes.lane_map (f : Word → Word) (x : Lanes) (j : Lane) : (x.map f).lane j = f (x.lane j) := by
  simp [Lanes.map]

@[simp] theorem Lanes.lane_map2 (f : Word → Word → Word) (x y : Lanes) (j : Lane) :
    (Lanes.map2 f x y).lane j = f (x.lane j) (y.lane j) := by
  simp [Lanes.map2]

namespace Machine

@[simp] theorem wIndex_val (q : Slot) (j : Lane) : (wIndex q j).val = 4 * q.val + j.val := rfl

@[simp] theorem outIndex_val (d : Slot) (j : Lane) : (outIndex d j).val = 4 * d.val + j.val := rfl

theorem wIndex_inj {q q' : Slot} {j j' : Lane} : wIndex q j = wIndex q' j' ↔ q = q' ∧ j = j' := by
  simp only [Fin.ext_iff, wIndex_val]; omega

theorem outIndex_inj {d d' : Slot} {j j' : Lane} : outIndex d j = outIndex d' j' ↔ d = d' ∧ j = j' := by
  simp only [Fin.ext_iff, outIndex_val]; omega

@[simp] theorem wIndex_ne_rot (q : Slot) (j : Lane) : wIndex q j ≠ rotIndex := by
  simp only [ne_eq, Fin.ext_iff, wIndex_val, rotIndex]; simp; omega

/-- Every word of `W` is the counter or a lane of a slot. -/
theorem wIndex_cases (k : Fin 21) : k = rotIndex ∨ ∃ q j, k = wIndex q j := by
  by_cases h : k.val = 20
  · exact .inl (Fin.ext h)
  · exact .inr ⟨⟨k.val / 4, by omega⟩, ⟨k.val % 4, by omega⟩, Fin.ext (by simp only [wIndex_val]; omega)⟩

/-- Every word of `OUT` is a lane of a slice. -/
theorem outIndex_cases (k : Fin 20) : ∃ d j, k = outIndex d j :=
  ⟨⟨k.val / 4, by omega⟩, ⟨k.val % 4, by omega⟩, Fin.ext (by simp only [outIndex_val]; omega)⟩

@[simp] theorem lane_vload (s : State) (q : Slot) (j : Lane) : (s.vload q).lane j = s.readW (wIndex q j) := by
  simp [State.vload]

/-- A vector store, word by word. -/
theorem readW_vstore (s : State) (q : Slot) (x : Lanes) (q' : Slot) (j : Lane) :
    (s.vstore q x).readW (wIndex q' j) = if q' = q then x.lane j else s.readW (wIndex q' j) := by
  simp only [State.vstore, readW_writeW, wIndex_inj]
  by_cases h : q' = q
  · subst h; fin_cases j <;> simp
  · simp [h]

@[simp] theorem readW_vstore_rot (s : State) (q : Slot) (x : Lanes) :
    (s.vstore q x).readW rotIndex = s.readW rotIndex := by
  simp [State.vstore, readW_writeW, (wIndex_ne_rot q _).symm]

/-- A vector output, word by word. -/
theorem readOut_vout (s : State) (d : Slot) (x : Lanes) (d' : Slot) (j : Lane) :
    (s.vout d x).readOut (outIndex d' j) = if d' = d then x.lane j else s.readOut (outIndex d' j) := by
  simp only [State.vout, readOut_writeOut, outIndex_inj]
  by_cases h : d' = d
  · subst h; fin_cases j <;> simp
  · simp [h]

/-- The new `s4` a vector step computes in a lane. -/
def stepWord (s : State) (row : RoundRow) (j : Lane) : Word :=
  xsV (s.readW (wIndex row.s4Off j)) (xsT (s.readW (wIndex row.tOff j)))

/-- What a vector step does to every data word of `W`. -/
theorem readW_vectorStep (s : State) (row : RoundRow) (d q : Slot) (j : Lane) :
    (vectorStep s row d).readW (wIndex q j) = if q = row.stOff then stepWord s row j else s.readW (wIndex q j) := by
  simp [vectorStep, readW_vstore, stepWord]

@[simp] theorem readW_vectorStep_rot (s : State) (row : RoundRow) (d : Slot) :
    (vectorStep s row d).readW rotIndex = s.readW rotIndex := by
  simp [vectorStep]

/-- What a vector step does to every word of `OUT`. -/
theorem readOut_vectorStep (s : State) (row : RoundRow) (d d' : Slot) (j : Lane) :
    (vectorStep s row d).readOut (outIndex d' j) =
      if d' = d then xsOut (s.readW (wIndex row.s1Off j)) (stepWord s row j) else s.readOut (outIndex d' j) := by
  simp [vectorStep, readOut_vout, stepWord]

/-- The round table in closed form, by slots (42_unrolled_vector.md R142). -/
theorem roundTable_closed (k : Phase) : roundTable k = ⟨k.number, k.number + 4, k.number + 2, k.number⟩ := by
  cases k <;> rfl

@[simp] theorem number_next (k : Phase) : k.next.number = k.number + 1 := by cases k <;> rfl

@[simp] theorem number_ofNumber (q : Slot) : (Phase.ofNumber q).number = q := by fin_cases q <;> rfl

@[simp] theorem ofNumber_number (k : Phase) : Phase.ofNumber k.number = k := by cases k <;> rfl

/-- The slots after `q`, modulo 5. -/
theorem slot_cycle : ∀ q : Slot, q + 1 + 1 = q + 2 ∧ q + 1 + 2 = q + 3 ∧ q + 1 + 3 = q + 4 ∧ q + 1 + 4 = q ∧
    q + 1 ≠ q ∧ q + 2 ≠ q ∧ q + 3 ≠ q ∧ q + 4 ≠ q := by
  decide

/-- One vector step at slot `q` is one lane step on the window that starts there; afterwards the window starts one
slot later. -/
theorem window_vectorStep (s : State) (q d : Slot) (j : Lane) :
    (vectorStep s ⟨q, q + 4, q + 2, q⟩ d).window (q + 1) j = (laneStep (s.window q j)).1 := by
  obtain ⟨e2, e3, e4, e5, n1, n2, n3, n4⟩ := slot_cycle q
  simp only [State.window, e2, e3, e4, e5, readW_vectorStep, laneStep_window, Window.mk.injEq]
  simp [stepWord, n1, n2, n3, n4]

theorem output_vectorStep (s : State) (q d : Slot) (j : Lane) :
    (vectorStep s ⟨q, q + 4, q + 2, q⟩ d).readOut (outIndex d j) = (laneStep (s.window q j)).2 := by
  simp [readOut_vectorStep, stepWord, State.window]

/-- A round is one lane step in every lane (R140, R142). -/
theorem window_round (s : State) (k : Phase) (d : Slot) (j : Lane) :
    (roundOp k d s).window (k.number + 1) j = (laneStep (s.window k.number j)).1 := by
  rw [roundOp, roundTable_closed]; exact window_vectorStep s k.number d j

theorem output_round (s : State) (k : Phase) (d : Slot) (j : Lane) :
    (roundOp k d s).readOut (outIndex d j) = (laneStep (s.window k.number j)).2 := by
  rw [roundOp, roundTable_closed]; exact output_vectorStep s k.number d j

/-- A round writes no other slice. -/
theorem readOut_round_other (s : State) (k : Phase) {d d' : Slot} (h : d' ≠ d) (j : Lane) :
    (roundOp k d s).readOut (outIndex d' j) = s.readOut (outIndex d' j) := by
  rw [roundOp, readOut_vectorStep, if_neg h]

/-- A round writes no other slot. -/
theorem readW_round_other (s : State) (k : Phase) (d : Slot) {q : Slot} (h : q ≠ k.number) (j : Lane) :
    (roundOp k d s).readW (wIndex q j) = s.readW (wIndex q j) := by
  rw [roundOp, readW_vectorStep, roundTable_closed, if_neg h]

@[simp] theorem readW_round_rot (s : State) (k : Phase) (d : Slot) :
    (roundOp k d s).readW rotIndex = s.readW rotIndex := by
  simp [roundOp]

theorem window_congr {s t : State} (h : ∀ q j, t.readW (wIndex q j) = s.readW (wIndex q j)) (q : Slot)
    (j : Lane) : t.window q j = s.window q j := by
  simp [State.window, h]

@[simp] theorem window_respond (s : State) (e : Bool) (d : Word) (q : Slot) (j : Lane) :
    (s.respond e d).window q j = s.window q j := rfl

@[simp] theorem window_setPh (s : State) (p : Phase) (q : Slot) (j : Lane) :
    (s.setPh p).window q j = s.window q j := rfl

theorem slot_cases : ∀ q q' : Slot, q' = q ∨ q' = q + 1 ∨ q' = q + 2 ∨ q' = q + 3 ∨ q' = q + 4 := by
  decide

/-- The four windows hold all the data words. -/
theorem readW_of_windows {s t : State} {q : Slot} (h : ∀ j, t.window q j = s.window q j) :
    ∀ k, k ≠ rotIndex → t.readW k = s.readW k := by
  intro k hk
  rcases wIndex_cases k with rfl | ⟨q', j, rfl⟩
  · exact absurd rfl hk
  · have hj := h j
    simp only [State.window, Window.mk.injEq] at hj
    obtain ⟨h0, h1, h2, h3, h4⟩ := hj
    rcases slot_cases q q' with e | e | e | e | e <;> subst e <;> assumption

/-- A round reads `W` and nothing else. -/
theorem round_w_congr {s s' : State} (h : s'.w = s.w) (k : Phase) (d : Slot) :
    (roundOp k d s').w = (roundOp k d s).w := by
  apply w_ext
  intro i
  rcases wIndex_cases i with rfl | ⟨q, j, rfl⟩
  · simp only [readW_round_rot, readW_congr h]
  · simp only [roundOp, readW_vectorStep, stepWord, readW_congr h]

theorem round_out_congr {s s' : State} (h : s'.w = s.w) (h' : s'.out = s.out) (k : Phase) (d : Slot) :
    (roundOp k d s').out = (roundOp k d s).out := by
  apply out_ext
  intro i
  obtain ⟨q, j, rfl⟩ := outIndex_cases i
  simp only [roundOp, readOut_vectorStep, stepWord, readW_congr h, readOut_congr h']

@[simp] theorem readW_fiveRounds_rot (s : State) : (fiveRounds s).readW rotIndex = s.readW rotIndex := by
  simp [fiveRounds]

/-- The five rounds are five lane steps in every lane; slice `k` holds the output of number `k + 1`. -/
theorem fiveRounds_lanes (s : State) (j : Lane) :
    (fiveRounds s).window 0 j = laneSteps 5 (s.window 0 j) ∧
      ∀ k : Slot, (fiveRounds s).readOut (outIndex k j) = laneOutput k.val (s.window 0 j) := by
  unfold fiveRounds
  generalize h1 : roundOp .phase0 0 s = s1
  generalize h2 : roundOp .phase1 1 s1 = s2
  generalize h3 : roundOp .phase2 2 s2 = s3
  generalize h4 : roundOp .phase3 3 s3 = s4
  have w1 : s1.window 1 j = laneSteps 1 (s.window 0 j) := by rw [← h1]; exact window_round s .phase0 0 j
  have w2 : s2.window 2 j = laneSteps 2 (s.window 0 j) := by
    rw [laneSteps_succ', ← w1, ← h2]; exact window_round s1 .phase1 1 j
  have w3 : s3.window 3 j = laneSteps 3 (s.window 0 j) := by
    rw [laneSteps_succ', ← w2, ← h3]; exact window_round s2 .phase2 2 j
  have w4 : s4.window 4 j = laneSteps 4 (s.window 0 j) := by
    rw [laneSteps_succ', ← w3, ← h4]; exact window_round s3 .phase3 3 j
  refine ⟨by rw [laneSteps_succ', ← w4]; exact window_round s4 .phase4 4 j, fun k => ?_⟩
  have r1 : ∀ q : Slot, q ≠ 1 → s2.readOut (outIndex q j) = s1.readOut (outIndex q j) :=
    fun q hq => by rw [← h2]; exact readOut_round_other _ _ hq _
  have r2 : ∀ q : Slot, q ≠ 2 → s3.readOut (outIndex q j) = s2.readOut (outIndex q j) :=
    fun q hq => by rw [← h3]; exact readOut_round_other _ _ hq _
  have r3 : ∀ q : Slot, q ≠ 3 → s4.readOut (outIndex q j) = s3.readOut (outIndex q j) :=
    fun q hq => by rw [← h4]; exact readOut_round_other _ _ hq _
  have r4 : ∀ q : Slot, q ≠ 4 → (roundOp .phase4 4 s4).readOut (outIndex q j) = s4.readOut (outIndex q j) :=
    fun q hq => readOut_round_other _ _ hq _
  simp only [laneOutput]
  fin_cases k
  · rw [r4 _ (by decide), r3 _ (by decide), r2 _ (by decide), r1 _ (by decide), ← h1]
    exact output_round s .phase0 0 j
  · rw [r4 _ (by decide), r3 _ (by decide), r2 _ (by decide), ← h2]
    exact (output_round s1 .phase1 1 j).trans (by rw [show Phase.phase1.number = 1 from rfl, w1])
  · rw [r4 _ (by decide), r3 _ (by decide), ← h3]
    exact (output_round s2 .phase2 2 j).trans (by rw [show Phase.phase2.number = 2 from rfl, w2])
  · rw [r4 _ (by decide), ← h4]
    exact (output_round s3 .phase3 3 j).trans (by rw [show Phase.phase3.number = 3 from rfl, w3])
  · exact (output_round s4 .phase4 4 j).trans (by rw [show Phase.phase4.number = 4 from rfl, w4])

/-- The dispatched phase operation is its round, then the cursor's advance (R166). -/
theorem runPhase_eq (k : Phase) (d : Slot) (s : State) : runPhase k d s = (roundOp k d s).setPh k.next := by
  cases k <;> rfl

end Machine

end Sys2Proof
end

