-- ==== Sys2Proof/Laws/Exec.lean ====
section
/-! SUPPORT. The operand forms, and what each command answers: one equation per command where it is executed,
and one inversion lemma over all commands. -/

namespace Sys2Proof.Machine

open Sys2Proof.Safety

theorem wOperand_of_le {idx : BitVec 8} (h : idx.toNat ≤ 20) : wOperand idx = some ⟨idx.toNat, by omega⟩ := by
  simp [wOperand, h]

theorem wOperand_of_gt {idx : BitVec 8} (h : 20 < idx.toNat) : wOperand idx = none := by
  simp [wOperand, Nat.not_le.mpr h]

theorem outOperand_of_le {idx : BitVec 8} (h : idx.toNat ≤ 19) : outOperand idx = some ⟨idx.toNat, by omega⟩ := by
  simp [outOperand, h]

theorem outOperand_of_gt {idx : BitVec 8} (h : 19 < idx.toNat) : outOperand idx = none := by
  simp [outOperand, Nat.not_le.mpr h]

theorem sliceOperand_of_le {d : BitVec 8} (h : d.toNat ≤ 4) : sliceOperand d = some ⟨d.toNat, by omega⟩ := by
  simp [sliceOperand, h]

theorem sliceOperand_of_gt {d : BitVec 8} (h : 4 < d.toNat) : sliceOperand d = none := by
  simp [sliceOperand, Nat.not_le.mpr h]

/-- The legal counters are the base indices of the slots (10_state.md R28). -/
theorem counterLegal_iff (c : Word) : counterLegal c ↔ ∃ q, c = slotCounter q := by
  constructor
  · rintro (h | h | h | h | h)
    exacts [⟨0, h⟩, ⟨1, h⟩, ⟨2, h⟩, ⟨3, h⟩, ⟨4, h⟩]
  · rintro ⟨q, rfl⟩
    fin_cases q
    exacts [.inl rfl, .inr (.inl rfl), .inr (.inr (.inl rfl)), .inr (.inr (.inr (.inl rfl))),
      .inr (.inr (.inr (.inr rfl)))]

theorem slotCounter_inj {q q' : Slot} (h : slotCounter q = slotCounter q') : q = q' := by
  revert q q'; decide

/-- The bases of a legal counter (41_ring_vector.md R122). -/
@[simp] theorem ringBases_slotCounter : ∀ q : Slot, ringBases (slotCounter q) = some ⟨q + 1, q + 3, q⟩ := by
  decide

/-- Any other counter gives no bases (41_ring_vector.md R124). -/
theorem ringBases_eq_none {c : Word} (h : ¬ counterLegal c) : ringBases c = none := by
  have hs : slotAt c.toNat = none := by
    unfold slotAt
    split
    · rename_i hc
      refine absurd ((counterLegal_iff c).mpr ⟨⟨c.toNat / 4, by omega⟩, ?_⟩) h
      apply BitVec.eq_of_toNat_eq
      simp [slotCounter]
      omega
    · rfl
  simp [ringBases, hs]

theorem isSome_ringBases {c : Word} : (ringBases c).isSome = true ↔ counterLegal c := by
  constructor
  · intro h
    by_contra hc
    simp [ringBases_eq_none hc] at h
  · intro h
    obtain ⟨q, rfl⟩ := (counterLegal_iff c).mp h
    simp

/-- The test for completion says whether the command is executed. -/
theorem completes_iff {i : Instr} {s : State} : completes i s = true ↔ executes i s := by
  cases i with
  | wrs idx data => simp only [completes, executes, wOperand]; split <;> simp [*]
  | rds idx => simp only [completes, executes, wOperand]; split <;> simp [*]
  | rdo idx => simp only [completes, executes, outOperand]; split <;> simp [*]
  | rdst => simp [completes, executes]
  | stepS => simp [completes, executes]
  | stepR => simp only [completes, executes, Bool.and_eq_true, isSome_ringBases]; simp
  | stepU => simp [completes, executes]
  | stepP d => simp only [completes, executes, sliceOperand]; split <;> simp [*]

/-- What a command that is executed reads and writes is its row of 10_state.md R30. -/
theorem readsWIn_of_executes {i : Instr} {s : State} (h : executes i s) : readsWIn i s = readsW i s := by
  simp [readsWIn, completes_iff.mpr h]

theorem writesWIn_of_executes {i : Instr} {s : State} (h : executes i s) : writesWIn i s = writesW i s := by
  simp [writesWIn, completes_iff.mpr h]

/-- A command that is not executed writes no word, and reads only its checks' words. -/
theorem writesWIn_of_not_executes {i : Instr} {s : State} (h : ¬ executes i s) : writesWIn i s = [] := by
  simp [writesWIn, mt completes_iff.mp h]

theorem readsWIn_of_not_executes {i : Instr} {s : State} (h : ¬ executes i s) : readsWIn i s = checksReadW i s := by
  simp [readsWIn, mt completes_iff.mp h]

/-- The state after a command that is executed, with its response. -/
def effect (i : Instr) (s : State) : State :=
  match i with
  | .wrs idx data =>
    match wOperand idx with
    | none => s
    | some k => (s.writeW k data).respond false 0#32
  | .rds idx =>
    match wOperand idx with
    | none => s
    | some k => s.respond false (s.readW k)
  | .rdo idx =>
    match outOperand idx with
    | none => s
    | some k => s.respond false (s.readOut k)
  | .rdst => s.respond false (statusWord s)
  | .stepS =>
    ((s.writeScalarWindow (laneStep s.scalarWindow).1).writeOut 0 (laneStep s.scalarWindow).2).respond false
      (laneStep s.scalarWindow).2
  | .stepR =>
    match ringBases (s.readW rotIndex) with
    | none => s
    | some b =>
      (vectorStep (s.writeW rotIndex (slotCounter b.base0)) ⟨b.base0, b.base4, b.base1, b.base0⟩ 0).respond
        false 0#32
  | .stepU => (fiveRounds s).respond false 0#32
  | .stepP d =>
    match s.ph, sliceOperand d with
    | some k, some q => (runPhase k q s).respond false 0#32
    | _, _ => s

/-- A command that is executed answers its effect. -/
theorem exec_of_executes {i : Instr} {s : State} (h : executes i s) : exec i s = .next (effect i s) := by
  cases i with
  | wrs idx data =>
    obtain ⟨he, hi⟩ := h
    simp [exec, execWrs, he, wOperand_of_le hi, effect]
  | rds idx =>
    have hi : idx.toNat ≤ 20 := h
    simp [exec, execRds, wOperand_of_le hi, effect]
  | rdo idx =>
    have hi : idx.toNat ≤ 19 := h
    simp [exec, execRdo, outOperand_of_le hi, effect]
  | rdst => rfl
  | stepS =>
    have he : s.err = false := h
    simp [exec, execStepS, he, effect]
  | stepR =>
    obtain ⟨he, hc⟩ := h
    obtain ⟨q, hq⟩ := (counterLegal_iff _).mp hc
    simp [exec, execStepR, he, hq, effect]
  | stepU =>
    have he : s.err = false := h
    simp [exec, execStepU, he, effect]
  | stepP d =>
    obtain ⟨hp, he, hd⟩ := h
    obtain ⟨k, hk⟩ := Option.isSome_iff_exists.mp hp
    simp [exec, execStepP, hk, he, sliceOperand_of_le hd, effect]

/-- A command that is not executed is refused, or takes a fault (60_exceptions.md R205). -/
theorem exec_of_not_executes {i : Instr} {s : State} (h : ¬ executes i s) :
    (s.err = true ∧ exec i s = .next (refuse s)) ∨ ∃ f, exec i s = .next (raise f s) := by
  cases i with
  | wrs idx data =>
    by_cases he : s.err = true
    · exact .inl ⟨he, by simp [exec, execWrs, he]⟩
    · have he' : s.err = false := by simpa using he
      have hi : 20 < idx.toNat := Nat.lt_of_not_le fun hi => h ⟨he', hi⟩
      exact .inr ⟨.badIndex, by simp [exec, execWrs, he', wOperand_of_gt hi]⟩
  | rds idx =>
    have hi : 20 < idx.toNat := Nat.lt_of_not_le fun hi => h hi
    exact .inr ⟨.badIndex, by simp [exec, execRds, wOperand_of_gt hi]⟩
  | rdo idx =>
    have hi : 19 < idx.toNat := Nat.lt_of_not_le fun hi => h hi
    exact .inr ⟨.badIndex, by simp [exec, execRdo, outOperand_of_gt hi]⟩
  | rdst => exact absurd trivial h
  | stepS =>
    have he : s.err = true := by simpa [executes] using h
    exact .inl ⟨he, by simp [exec, execStepS, he]⟩
  | stepR =>
    by_cases he : s.err = true
    · exact .inl ⟨he, by simp [exec, execStepR, he]⟩
    · have he' : s.err = false := by simpa using he
      have hc : ringBases (s.readW rotIndex) = none := ringBases_eq_none fun hc => h ⟨he', hc⟩
      exact .inr ⟨.badRot, by simp [exec, execStepR, he', hc]⟩
  | stepU =>
    have he : s.err = true := by simpa [executes] using h
    exact .inl ⟨he, by simp [exec, execStepU, he]⟩
  | stepP d =>
    cases hp : s.ph with
    | none => exact .inr ⟨.illegalCmd, by simp [exec, execStepP, hp]⟩
    | some k =>
      by_cases he : s.err = true
      · exact .inl ⟨he, by simp [exec, execStepP, hp, he]⟩
      · have he' : s.err = false := by simpa using he
        have hd : 4 < d.toNat := Nat.lt_of_not_le fun hd => h ⟨by simp [hp], he', hd⟩
        exact .inr ⟨.badIndex, by simp [exec, execStepP, hp, he', sliceOperand_of_gt hd]⟩

/-- What any command can do: its effect, a refusal, or a fault. -/
theorem exec_cases (i : Instr) (s : State) :
    (executes i s ∧ exec i s = .next (effect i s)) ∨
      (¬ executes i s ∧ s.err = true ∧ exec i s = .next (refuse s)) ∨
      (¬ executes i s ∧ ∃ f, exec i s = .next (raise f s)) := by
  by_cases h : executes i s
  · exact .inl ⟨h, exec_of_executes h⟩
  · exact .inr ((exec_of_not_executes h).imp (fun a => ⟨h, a⟩) fun a => ⟨h, a⟩)

/-- An executed command changes neither `ERR`, `CAUSE`, the port nor the reset count, and keeps the phase unit. -/
theorem effect_frame (i : Instr) (s : State) :
    (effect i s).err = s.err ∧ (effect i s).cause = s.cause ∧ (effect i s).port = s.port ∧
      (effect i s).resets = s.resets ∧ (effect i s).ph.isSome = s.ph.isSome := by
  cases i with
  | wrs idx data => simp only [effect]; split <;> simp
  | rds idx => simp only [effect]; split <;> simp
  | rdo idx => simp only [effect]; split <;> simp
  | rdst => simp [effect]
  | stepS => simp [effect]
  | stepR => simp only [effect]; split <;> simp
  | stepU => simp [effect]
  | stepP d => simp only [effect]; split <;> simp_all [runPhase_eq]

/-- The ring step in closed form: from counter `4q` it is one vector step at slot `q + 1` (41_ring_vector.md R122,
R127). -/
theorem effect_stepR {s : State} {q : Slot} (h : s.readW rotIndex = slotCounter q) :
    effect .stepR s =
      (vectorStep (s.writeW rotIndex (slotCounter (q + 1)))
        ⟨q + 1, q + 1 + 4, q + 1 + 2, q + 1⟩ 0).respond false 0#32 := by
  obtain ⟨-, e2, -, e4, -⟩ := slot_cycle q
  simp [effect, h, e2, e4]

/-- A step with a command at the port (30_encoding.md R70). -/
theorem step_command {s : State} {c : BitVec 64} {rest : List HostEvent} (h : s.port = .command c :: rest) :
    step s = runCommand c { s with port := rest } := by
  simp [step, servePort, h]

theorem step_idle {s : State} (h : s.port = []) : step s = .next s := by simp [step, servePort, h]

theorem step_reset {s : State} {rest : List HostEvent} (h : s.port = .reset :: rest) :
    step s = .next ({ s with port := rest }).assertReset := by
  simp [step, servePort, h]

theorem step_resetDuring {s : State} {c : BitVec 64} {rest : List HostEvent} (h : s.port = .resetDuring c :: rest) :
    step s = abandonCommand c { s with port := rest } := by
  simp [step, servePort, h]

theorem runCommand_ok {c : BitVec 64} {s : State} {i : Instr} (h : decode s.hasPhase c = .ok i) :
    runCommand c s = exec i s := by
  unfold runCommand; rw [h]

theorem runCommand_error {c : BitVec 64} {s : State} {e : Illegal} (h : decode s.hasPhase c = .error e) :
    runCommand c s = .next (raise .illegalCmd s) := by
  unfold runCommand; rw [h]

/-- A fault while one is recorded changes nothing: it is a refusal (60_exceptions.md R210). -/
theorem raise_of_err {s : State} (h : s.err = true) (f : CmdFault) : raise f s = refuse s := by
  simp [raise, refuse, State.recordFault, h]

/-- A command word taken from the port: a command's effect, a refusal, or a fault. -/
theorem runCommand_cases (s : State) (c : BitVec 64) :
    (∃ i, decode s.hasPhase c = .ok i ∧ executes i s ∧ runCommand c s = .next (effect i s)) ∨
      ((∀ i, decode s.hasPhase c = .ok i → ¬ executes i s) ∧
        ((s.err = true ∧ runCommand c s = .next (refuse s)) ∨ ∃ f, runCommand c s = .next (raise f s))) := by
  cases hd : decode s.hasPhase c with
  | error e => exact .inr ⟨nofun, .inr ⟨_, runCommand_error hd⟩⟩
  | ok i =>
    rw [runCommand_ok hd]
    rcases exec_cases i s with ⟨h, h'⟩ | ⟨h, h', h''⟩ | ⟨h, f, h'⟩
    · exact .inl ⟨i, rfl, h, h'⟩
    · exact .inr ⟨by rintro j hj; cases hj; exact h, .inl ⟨h', h''⟩⟩
    · exact .inr ⟨by rintro j hj; cases hj; exact h, .inr ⟨f, h'⟩⟩

theorem runCommand_next (s : State) (c : BitVec 64) : ∃ t, runCommand c s = .next t := by
  rcases runCommand_cases s c with ⟨_, _, _, h⟩ | ⟨_, ⟨_, h⟩ | ⟨_, h⟩⟩ <;> exact ⟨_, h⟩

/-- Reset while a command is being executed: the reset state, with or without the command's response. -/
theorem abandonCommand_cases {s t : State} {c : BitVec 64} (h : runCommand c s = .next t) :
    abandonCommand c s = .next s.assertReset ∨
      abandonCommand c s = .next { s.assertReset with responses := t.responses } := by
  unfold abandonCommand
  rw [h]
  simp only
  split
  · exact .inr rfl
  · exact .inl rfl

/-- A state-changing command is not executed while a fault is recorded (60_exceptions.md R208). -/
theorem not_executes_of_err {s : State} {i : Instr} (he : s.err = true) (hi : stateChanging i = true) :
    ¬ executes i s := by
  cases i <;> simp_all [executes, stateChanging]

/-- A command that is not executed while a fault is recorded is refused. -/
theorem exec_refused {s : State} {i : Instr} (he : s.err = true) (hi : ¬ executes i s) :
    exec i s = .next (refuse s) := by
  rcases exec_of_not_executes hi with ⟨_, h⟩ | ⟨f, h⟩
  · exact h
  · rw [h, raise_of_err he]

/-- The reads change no word and no cursor. -/
theorem effect_read {i : Instr} {s : State} (hi : stateChanging i = false) :
    (effect i s).w = s.w ∧ (effect i s).out = s.out ∧ (effect i s).ph = s.ph := by
  cases i <;> simp [stateChanging] at hi <;> simp only [effect]
  · split <;> exact ⟨rfl, rfl, rfl⟩
  · split <;> exact ⟨rfl, rfl, rfl⟩
  · exact ⟨rfl, rfl, rfl⟩

theorem exec_wrs {s : State} {idx : BitVec 8} {data : Word} (he : s.err = false) (h : idx.toNat ≤ 20) :
    exec (.wrs idx data) s = .next ((s.writeW ⟨idx.toNat, by omega⟩ data).respond false 0#32) := by
  rw [exec_of_executes (i := .wrs idx data) ⟨he, h⟩]
  simp [effect, wOperand_of_le h]

theorem exec_stepR {s : State} {q : Slot} (he : s.err = false) (hq : s.readW rotIndex = slotCounter q) :
    exec .stepR s =
      .next ((vectorStep (s.writeW rotIndex (slotCounter (q + 1)))
        ⟨q + 1, q + 1 + 4, q + 1 + 2, q + 1⟩ 0).respond false 0#32) := by
  rw [exec_of_executes (i := .stepR) ⟨he, (counterLegal_iff _).mpr ⟨q, hq⟩⟩, effect_stepR hq]

@[simp] theorem sliceOperand_ofNat : ∀ d : Slot, sliceOperand (BitVec.ofNat 8 d.val) = some d := by
  decide

theorem exec_stepP {s : State} {k : Phase} (he : s.err = false) (hk : s.ph = some k) (d : Slot) :
    exec (.stepP (BitVec.ofNat 8 d.val)) s = .next (((roundOp k d s).setPh k.next).respond false 0#32) := by
  simp [exec, execStepP, hk, he, runPhase_eq]

/-! Sequences of commands and of steps. -/

/-- The inputs of a sequence are its first command's reads that nothing has written, then those of the rest, with the
first command's writes added to what has been written (70_reset_and_hazards.md R250 (d)). -/
theorem launchInputs_cons {i : Instr} {is : List Instr} {s t : State} (h : exec i s = .next t)
    (written : List (Fin 21)) :
    launchInputs written (i :: is) s =
      (readsWIn i s).filter (fun k => !written.contains k) ++ launchInputs (writesWIn i s ++ written) is t := by
  simp [launchInputs, h]

theorem execAll_cons {i : Instr} {is : List Instr} {s t : State} (h : exec i s = .next t) :
    execAll (i :: is) s = execAll is t := by
  simp [execAll, h]

theorem execAll_append {is js : List Instr} {s t : State} (h : execAll is s = .next t) :
    execAll (is ++ js) s = execAll js t := by
  induction is generalizing s with
  | nil => simp only [execAll, Host.Outcome.next.injEq] at h; subst h; rfl
  | cons i is ih =>
    simp only [List.cons_append, execAll] at h ⊢
    split at h
    · exact ih h
    · cases h
    · cases h

/-- What every execution of a command keeps for one more time, it has after `n` of them. -/
theorem execAll_replicate {i : Instr} {P : Nat → State → Prop}
    (step_P : ∀ n s, P n s → ∃ t, exec i s = .next t ∧ P (n + 1) t) {s : State} (h0 : P 0 s) (n : Nat) :
    ∃ t, execAll (List.replicate n i) s = .next t ∧ P n t := by
  induction n with
  | zero => exact ⟨s, rfl, h0⟩
  | succ n ih =>
    obtain ⟨t, ht, hp⟩ := ih
    obtain ⟨u, hu, hq⟩ := step_P n t hp
    refine ⟨u, ?_, hq⟩
    rw [List.replicate_succ', execAll_append ht, execAll_cons hu]
    rfl

/-- One step of a run that goes on. -/
theorem core_run_succ {s t : State} (h : step s = .next t) (n : Nat) :
    Sys2Proof.core.run (n + 1) s = Sys2Proof.core.run n t := by
  simp only [Host.Core.run]
  rw [show Sys2Proof.core.step s = .next t from h]

end Sys2Proof.Machine
end

