-- ==== Sys2Proof/Laws/PerInstr.lean ====
section
/-! SUPPORT. Statements about every command as syntax, one lemma per constructor of Instr. -/

namespace Sys2Proof.Laws

/-- The command's row of the opcode map makes the command again from the operands the command carries, and the
fields a format does not use are 0 (30_encoding.md R71, R72, R74). -/
def RowMakesCommand.Statement (i : Instr) : Prop :=
  i.mnemonic.command i.idx i.data = i ∧ (i.mnemonic.format = .Z → i.idx = 0#8) ∧
    (i.mnemonic.format ≠ .D → i.data = 0#32)

theorem RowMakesCommand.wrs (idx : BitVec 8) (data : Word) : RowMakesCommand.Statement (.wrs idx data) :=
  ⟨rfl, nofun, fun h => absurd rfl h⟩

theorem RowMakesCommand.rds (idx : BitVec 8) : RowMakesCommand.Statement (.rds idx) := ⟨rfl, nofun, fun _ => rfl⟩

theorem RowMakesCommand.rdo (idx : BitVec 8) : RowMakesCommand.Statement (.rdo idx) := ⟨rfl, nofun, fun _ => rfl⟩

theorem RowMakesCommand.rdst : RowMakesCommand.Statement .rdst := ⟨rfl, fun _ => rfl, fun _ => rfl⟩

theorem RowMakesCommand.stepS : RowMakesCommand.Statement .stepS := ⟨rfl, fun _ => rfl, fun _ => rfl⟩

theorem RowMakesCommand.stepR : RowMakesCommand.Statement .stepR := ⟨rfl, fun _ => rfl, fun _ => rfl⟩

theorem RowMakesCommand.stepU : RowMakesCommand.Statement .stepU := ⟨rfl, fun _ => rfl, fun _ => rfl⟩

theorem RowMakesCommand.stepP (d : BitVec 8) : RowMakesCommand.Statement (.stepP d) := ⟨rfl, nofun, fun _ => rfl⟩

/-- `STEP.P` is the one command whose presence depends on `HAS_PHASE` (30_encoding.md R74). -/
def PhaseUnitCommand.Statement (i : Instr) : Prop :=
  ∀ hasPhase, i.wellFormed hasPhase = true ↔ (i.mnemonic = .stepP → hasPhase = true)

theorem PhaseUnitCommand.wrs (idx : BitVec 8) (data : Word) : PhaseUnitCommand.Statement (.wrs idx data) :=
  fun _ => ⟨fun _ => nofun, fun _ => rfl⟩

theorem PhaseUnitCommand.rds (idx : BitVec 8) : PhaseUnitCommand.Statement (.rds idx) :=
  fun _ => ⟨fun _ => nofun, fun _ => rfl⟩

theorem PhaseUnitCommand.rdo (idx : BitVec 8) : PhaseUnitCommand.Statement (.rdo idx) :=
  fun _ => ⟨fun _ => nofun, fun _ => rfl⟩

theorem PhaseUnitCommand.rdst : PhaseUnitCommand.Statement .rdst := fun _ => ⟨fun _ => nofun, fun _ => rfl⟩

theorem PhaseUnitCommand.stepS : PhaseUnitCommand.Statement .stepS := fun _ => ⟨fun _ => nofun, fun _ => rfl⟩

theorem PhaseUnitCommand.stepR : PhaseUnitCommand.Statement .stepR := fun _ => ⟨fun _ => nofun, fun _ => rfl⟩

theorem PhaseUnitCommand.stepU : PhaseUnitCommand.Statement .stepU := fun _ => ⟨fun _ => nofun, fun _ => rfl⟩

theorem PhaseUnitCommand.stepP (d : BitVec 8) : PhaseUnitCommand.Statement (.stepP d) :=
  fun _ => ⟨fun h _ => h, fun h => h rfl⟩

end Sys2Proof.Laws
end

