-- ==== Sys2Proof/Tests/Slice0.lean ====
section
/-! SUPPORT. Tests: the decoder on words written out from 30_encoding.md R71 to R75 and 95_test_vectors.md V7,
one step each on small states with the values of 95_test_vectors.md, and for each obligation with hypotheses a
witness that meets them. -/

namespace Sys2Proof.Tests

open Sys2Proof.Machine Sys2Proof.Safety Sys2Proof.Claims

/-! ## Small states -/

/-- `W[i] = i + 1`, `W[20] = 0`, `OUT[i] = 256 + i`, just after reset otherwise (the start of V3 to V5). -/
def start : State where
  w := #v[1, 2, 3, 4, 5, 6, 7, 8, 9, 10, 11, 12, 13, 14, 15, 16, 17, 18, 19, 20, 0]
  out := #v[256, 257, 258, 259, 260, 261, 262, 263, 264, 265, 266, 267, 268, 269, 270, 271, 272, 273, 274, 275]
  ph := some .phase0
  err := false
  cause := none
  port := []
  responses := []
  resets := 0

/-- The same with another rotation counter. -/
def startAt (c : Word) : State := start.writeW rotIndex c

/-- The same with another cursor. -/
def startPh (k : Phase) : State := start.setPh k

/-- The same on a block without the phase unit. -/
def startNoPhase : State := { start with ph := none }

/-- The same after a first fault `BAD_ROT`. -/
def faulted : State := { start with err := true, cause := some .badRot }

/-- The same with an event at the port. -/
def startWith (e : HostEvent) : State := { start with port := [e] }

/-- The outcome is a next state with the property. -/
def gives (o : Host.Outcome State Fault Refusal) (p : State → Bool) : Bool :=
  match o with
  | .next t => p t
  | .fault r => nomatch r
  | .refused _ => false

/-- The one response `rsp(e, d)`, and `ERR` and `CAUSE`. -/
def answers (e : Bool) (d : Word) (cause : Option CmdFault) (t : State) : Bool :=
  t.responses == [⟨e, d⟩] && t.err == cause.isSome && t.cause == cause

/-- `W[0..20]`, `OUT[0..19]` and `PH` are those of the start. -/
def unchanged (t : State) : Bool := t.w == start.w && t.out == start.out && t.ph == start.ph

/-! ## Well-formedness: the one check, refused and accepted -/

theorem test_stepP_ill_formed_without_phase_unit : (Instr.stepP 0#8).wellFormed false = false := by decide

theorem test_stepP_well_formed_with_phase_unit :
    (Instr.stepP 255#8).wellFormed true = true ∧ (Instr.wrs 255#8 0#32).wellFormed false = true := by decide

/-! ## Decoding: words written out field by field, `op rsv idx data` (R71), and the words of V7 -/

theorem test_decode_wrs :
    decode true 0b00000001_0000000000000000_00000100_00000000000000000000000000000101#64 = .ok (.wrs 4#8 5#32) := by
  decide

theorem test_decode_rds :
    decode true 0b00000010_0000000000000000_00010100_00000000000000000000000000000000#64 = .ok (.rds 20#8) := by
  decide

theorem test_decode_rdo :
    decode true 0b00000011_0000000000000000_00010011_00000000000000000000000000000000#64 = .ok (.rdo 19#8) := by
  decide

theorem test_decode_rdst :
    decode true 0b00000100_0000000000000000_00000000_00000000000000000000000000000000#64 = .ok .rdst := by
  decide

theorem test_decode_stepS :
    decode true 0b00010000_0000000000000000_00000000_00000000000000000000000000000000#64 = .ok .stepS := by
  decide

theorem test_decode_stepR :
    decode true 0b00010001_0000000000000000_00000000_00000000000000000000000000000000#64 = .ok .stepR := by
  decide

theorem test_decode_stepU :
    decode true 0b00010010_0000000000000000_00000000_00000000000000000000000000000000#64 = .ok .stepU := by
  decide

theorem test_decode_stepP :
    decode true 0b00010011_0000000000000000_00000101_00000000000000000000000000000000#64 = .ok (.stepP 5#8) := by
  decide

/-- The rows of V7 whose index is out of range decode: an index is no encoding matter (R73). -/
theorem test_decode_index_out_of_range :
    decode true 0x0100001500000000#64 = .ok (.wrs 21#8 0#32) ∧
      decode true 0x010000FF00000000#64 = .ok (.wrs 255#8 0#32) ∧
      decode true 0x0200001500000000#64 = .ok (.rds 21#8) ∧ decode true 0x0300001400000000#64 = .ok (.rdo 20#8) := by
  decide

/-- The illegal words of V7, each by the step of R75 that rejects it. -/
theorem test_decode_rejects :
    decode true 0x0100010400000005#64 = .error .rsvNonzero ∧ decode true 0x0180000400000005#64 = .error .rsvNonzero ∧
      decode true 0x0200000000000001#64 = .error .dataNonzero ∧
      decode true 0x0400000100000000#64 = .error .idxNonzero ∧
      decode true 0x1000000000000001#64 = .error .dataNonzero := by
  decide

/-- Opcodes of no row, the all-zero and the all-ones word (R76), and `STEP.P` without the unit (R173). -/
theorem test_decode_rejects_opcodes :
    decode true 0#64 = .error .unknownOp ∧ decode true 0x0500000000000000#64 = .error .unknownOp ∧
      decode true 0x1400000000000000#64 = .error .unknownOp ∧ decode true 0xFF00000000000000#64 = .error .unknownOp ∧
      decode true 0xFFFFFFFFFFFFFFFF#64 = .error .rsvNonzero ∧
      decode false 0x1300000000000000#64 = .error .phaseUnitAbsent := by
  decide

theorem test_decode_table_word : decodeTableWord 64 0x1300000400000000 = some (.stepP 4#8) := by decide

/-! ## The pure functions, rows of V1 -/

theorem test_xsT : xsT 0x12345678#32 = 0x12103ED4#32 ∧ xsT 0xDEADBEEF#32 = 0xDF10E592#32 := by decide

theorem test_xsV : xsV 0x12345678#32 0x9ABCDEF0#32 = 0x9E431688#32 ∧ xsV 0xFFFFFFFF#32 0xFFFFFFFF#32 = 0x1FC0#32 := by
  decide

theorem test_xsOut : xsOut 0x12345678#32 0x9ABCDEF0#32 = 0xE3171FF0#32 := by decide

/-- The offsets of R141. -/
theorem test_roundTable :
    [Phase.phase0, .phase1, .phase2, .phase3, .phase4].map (fun k =>
      (4 * (roundTable k).tOff.val, 4 * (roundTable k).s4Off.val, 4 * (roundTable k).s1Off.val,
        4 * (roundTable k).stOff.val)) =
      [(0, 16, 8, 0), (4, 0, 12, 4), (8, 4, 16, 8), (12, 8, 0, 12), (16, 12, 4, 16)] := by
  decide

/-! ## One command each -/

theorem test_wrs : gives (exec (.wrs 20#8 0xFFFFFFFF#32) start) (fun t =>
    t.readW rotIndex == 0xFFFFFFFF#32 && t.readW 19 == 20#32 && answers false 0#32 none t) = true := by
  decide

theorem test_wrs_bad_index : gives (exec (.wrs 21#8 0#32) start) (fun t =>
    unchanged t && answers true 0#32 (some .badIndex) t) = true := by
  decide

theorem test_rds : gives (exec (.rds 19#8) start) (fun t => unchanged t && answers false 20#32 none t) = true := by
  decide

theorem test_rds_bad_index_keeps_first_cause : gives (exec (.rds 21#8) faulted) (fun t =>
    unchanged t && answers true 0#32 (some .badRot) t) = true := by
  decide

theorem test_rdo : gives (exec (.rdo 19#8) start) (fun t => unchanged t && answers false 275#32 none t) = true := by
  decide

theorem test_rdo_bad_index : gives (exec (.rdo 20#8) start) (fun t =>
    unchanged t && answers true 0#32 (some .badIndex) t) = true := by
  decide

/-- The `STATUS` values of V7. -/
theorem test_rdst :
    statusWord start = 0x80#32 ∧ statusWord startNoPhase = 0#32 ∧ statusWord (startPh .phase4) = 0xC0#32 ∧
      statusWord faulted = 0x87#32 ∧ statusWord (faulted.setPh .phase3) = 0xB7#32 ∧
      statusWord (raise .illegalCmd startNoPhase) = 0x03#32 := by
  decide

theorem test_rdst_while_faulted : gives (exec .rdst faulted) (fun t =>
    unchanged t && answers false 0x87#32 (some .badRot) t) = true := by
  decide

/-- V2, first step. -/
theorem test_stepS : gives (exec .stepS start) (fun t =>
    t.scalarWindow == ⟨2, 3, 4, 5, 0x2144⟩ && t.readW 5 == 6 && t.readOut 0 == 0xE8DC && t.readOut 1 == 257 &&
      answers false 0xE8DC#32 none t) = true := by
  decide

theorem test_stepS_refused : gives (exec .stepS faulted) (fun t =>
    unchanged t && answers true 0#32 (some .badRot) t) = true := by
  decide

/-- V3, first call. -/
theorem test_stepR : gives (exec .stepR start) (fun t =>
    t.vload 1 == ⟨0xA044, 0xC084, 0xE0C4, 0x1010C⟩ && t.vload 0 == ⟨1, 2, 3, 4⟩ && t.readW rotIndex == 4 &&
      t.readOut 0 == 0x0010E72C && t.readOut 3 == 0x0021228C && t.readOut 4 == 260 && answers false 0#32 none t) = true := by
  decide

/-- V3: from counter 16 the ring does round 0; an illegal counter faults. -/
theorem test_stepR_wrap_and_fault :
    gives (exec .stepR (startAt 16)) (fun t =>
      t.vload 0 == ⟨0x2450, 0x4490, 0x64D0, 0x8510⟩ && t.readW rotIndex == 0 && t.readOut 0 == 0x0002B1F0) = true ∧
      gives (exec .stepR (startAt 0xFFFFFFFC)) (fun t =>
        t.readW rotIndex == 0xFFFFFFFC && answers true 0#32 (some .badRot) t) = true := by
  decide

/-- V4, the slices and slots of the last round and of round 1. -/
theorem test_stepU : gives (exec .stepU (startAt 7)) (fun t =>
    t.vload 4 == ⟨0xC856E640, 0x885A8680, 0x485EA6C0, 0x18E0C310⟩ && t.readOut 4 == 0x010238F7 &&
      t.readOut 14 == 0x8AD678F3 && t.readOut 19 == 0x6D237610 && t.readW rotIndex == 7 && t.ph == some .phase0 &&
      answers false 0#32 none t) = true := by
  decide

/-- V5: the slice is independent of the cursor; from `PH = 0` round 0 is run. -/
theorem test_stepP : gives (exec (.stepP 4#8) start) (fun t =>
    t.vload 0 == ⟨0x2450, 0x4490, 0x64D0, 0x8510⟩ && t.vload 1 == ⟨5, 6, 7, 8⟩ && t.readOut 16 == 0x0002B1F0 &&
      t.readOut 19 == 0x000CFE90 && t.readOut 15 == 271 && t.ph == some .phase1 && answers false 0#32 none t) = true := by
  decide

theorem test_stepP_bad_slice_and_absent :
    gives (exec (.stepP 5#8) start) (fun t => unchanged t && answers true 0#32 (some .badIndex) t) = true ∧
      gives (runCommand 0x1300000000000000#64 startNoPhase) (answers true 0#32 (some .illegalCmd)) = true := by
  decide

/-! ## The port, reset, and a word fetched from reset -/

theorem test_step_takes_one_command :
    gives (step { start with port := [.command 0x0200000400000000#64, .reset] }) (fun t =>
      t.port == [.reset] && answers false 5#32 none t) = true := by
  decide

theorem test_step_reset : gives (step { faulted with ph := some .phase3, port := [.reset] }) (fun t =>
    t.port == [] && t.ph == some .phase0 && t.err == false && t.cause == none && t.readW rotIndex == 0 &&
      t.resets == 1) = true := by
  decide

/-- A reset while `STEP.S` is executed: the reset state, and one response more or none (R231). -/
theorem test_reset_during_command :
    gives (step { startPh .phase3 with port := [.resetDuring 0x1000000000000000#64] }) (fun t =>
      t.port == [] && t.ph == some .phase0 && t.err == false && t.readW rotIndex == 0 && t.resets == 1) = true := by
  decide

theorem test_fetch_from_reset :
    gives (step (State.reset.withFetchWord 64 0x0400000000000000)) (fun t =>
      t.port == [] && answers false 0x80#32 none t) = true := by
  decide

/-- The examples of R83, and the order of `SEED.L`'s commands (R84). -/
theorem test_assembler :
    assembleLine "STEP.P 3 # third" = some [0x1300000300000000#64] ∧
      (assembleLine "SEED.L 2, 0xA, 11, 12, 13, 14").map (fun ws => ws.map idxField) =
        some [2#8, 6#8, 10#8, 14#8, 18#8] := by
  decide

/-- R250 (d): a faulting read and a refused write add nothing, so the last read is of an unwritten word; a write that
completes removes its word; a `STEP.R` with an illegal counter has read it. -/
theorem test_launchInputs :
    launchInputs [] [.rds 21#8, .wrs 3#8 7#32, .rds 3#8] start = [3] ∧
      launchInputs [] [.wrs 3#8 7#32, .rds 3#8, .rds 4#8] start = [4] ∧
      launchInputs [] [.stepR, .stepR, .rds 0#8] (startAt 7) = [20, 0] := by
  decide

/-! ## Witnesses: for each obligation with hypotheses, states and operands that meet them, each clause at a
boundary -/

theorem witness_WrsWritesOneWord :
    1#16 ≠ 0#16 ∧ faulted.err = true ∧ start.err = false ∧ 20 < (21#8).toNat ∧ (20#8).toNat ≤ 20 := by decide

theorem witness_RdsReadsOneWord : (0x8000#16 ≠ 0#16 ∨ 1#32 ≠ 0#32) ∧ 20 < (21#8).toNat ∧ (20#8).toNat ≤ 20 := by decide

theorem witness_RdoReadsOneOutput : (1#16 ≠ 0#16 ∨ 0#32 ≠ 0#32) ∧ 19 < (20#8).toNat ∧ (19#8).toNat ≤ 19 := by decide

theorem witness_RdstReadsStatus : 0#16 ≠ 0#16 ∨ 1#8 ≠ 0#8 ∨ 0#32 ≠ 0#32 := by decide

theorem witness_StepSAdvancesScalarWindow :
    (0#16 ≠ 0#16 ∨ 0#8 ≠ 0#8 ∨ 1#32 ≠ 0#32) ∧ faulted.err = true ∧ start.err = false := by decide

/-- The counter clauses of `STEP.R`: an illegal counter, and the first and the last legal one. -/
theorem witness_StepRAdvancesRing :
    faulted.err = true ∧ (startAt 20).err = false ∧ wAt (startAt 20) 20 ∉ [0#32, 4#32, 8#32, 12#32, 16#32] ∧
      (startAt 16).err = false ∧ (16, 0, 8) ∈ [(0, 4, 12), (4, 8, 16), (8, 12, 0), (12, 16, 4), (16, 0, 8)] ∧
      wAt (startAt 16) 20 = BitVec.ofNat 32 16 ∧ wAt (startAt 0) 20 = BitVec.ofNat 32 0 := by
  decide

theorem witness_StepURunsFiveRoundsInOrder :
    (1#16 ≠ 0#16 ∨ 0#8 ≠ 0#8 ∨ 0#32 ≠ 0#32) ∧ faulted.err = true ∧ start.err = false ∧ (startAt 7).err = false ∧
      ∀ k : Fin 21, k.val < 20 → (startAt 7).readW k = start.readW k := by
  decide

theorem witness_RoundLaneByLane :
    (Phase.phase0.number.val, 0, 16, 8, 0) ∈
        [(0, 0, 16, 8, 0), (1, 4, 0, 12, 4), (2, 8, 4, 16, 8), (3, 12, 8, 0, 12), (4, 16, 12, 4, 16)] ∧
      (Phase.phase4.number.val, 16, 12, 4, 16) ∈
        [(0, 0, 16, 8, 0), (1, 4, 0, 12, 4), (2, 8, 4, 16, 8), (3, 12, 8, 0, 12), (4, 16, 12, 4, 16)] := by
  decide

theorem witness_RingBasesTable :
    (16, 20, 0, 8, 0) ∈ [(0, 4, 4, 12, 1), (4, 8, 8, 16, 2), (8, 12, 12, 0, 3), (12, 16, 16, 4, 4), (16, 20, 0, 8, 0)] := by
  decide

/-- The cursor at both ends of its range; the slice operand at both sides of its bound. -/
theorem witness_StepPRunsDesignatedPhase :
    (1#16 ≠ 0#16 ∨ 0#32 ≠ 0#32 ∨ start.hasPhase = false) ∧
      (0#16 ≠ 0#16 ∨ 0#32 ≠ 0#32 ∨ startNoPhase.hasPhase = false) ∧ (startPh .phase0).ph = some .phase0 ∧ (startPh .phase4).ph = some .phase4 ∧
      (faulted.setPh .phase4).ph = some .phase4 ∧ (faulted.setPh .phase4).err = true ∧ (startPh .phase4).err = false ∧
      4 < (5#8).toNat ∧ (4#8).toNat ≤ 4 ∧
      (Phase.phase0, 0, 16, 8, Phase.phase1) ∈
        [(Phase.phase0, 0, 16, 8, Phase.phase1), (Phase.phase1, 4, 0, 12, Phase.phase2),
         (Phase.phase2, 8, 4, 16, Phase.phase3), (Phase.phase3, 12, 8, 0, Phase.phase4),
         (Phase.phase4, 16, 12, 4, Phase.phase0)] ∧
      (Phase.phase4, 16, 12, 4, Phase.phase0) ∈
        [(Phase.phase0, 0, 16, 8, Phase.phase1), (Phase.phase1, 4, 0, 12, Phase.phase2),
         (Phase.phase2, 8, 4, 16, Phase.phase3), (Phase.phase3, 12, 8, 0, Phase.phase4),
         (Phase.phase4, 16, 12, 4, Phase.phase0)] := by
  decide

theorem witness_NoPhaseUnitMakesStepPIllegal : startNoPhase.hasPhase = false := by decide

/-- The bit clauses of `XS_T` at their ends; no bit number falls under two of them. -/
theorem witness_XsTBits : 24 ≤ 24 ∧ 25 ≤ 25 ∧ 25 ≤ 31 ∧ 31 ≤ 31 := by decide

theorem witness_RecurrenceIsBijective :
    (laneStep ⟨0#32, 9#32, 9#32, 9#32, 0#32⟩).1.s4 = 0#32 := by decide

theorem witness_StepSIsScalarStream : start.err = false := by decide

theorem witness_StepUIsFiveLaneSteps : (startAt 7).err = false := by decide

theorem witness_FivePhasesEqualStepU : start.err = false ∧ start.ph = some .phase0 := by decide

theorem witness_ReadsBetweenPhasesDoNotDisturb :
    start.err = false ∧ start.ph = some .phase0 ∧
      (∀ i ∈ [Instr.stepP 0#8, .rdst, .stepP 1#8, .wrs 20#8 7#32, .stepP 2#8, .rds 20#8, .stepP 3#8, .rdo 19#8, .stepP 4#8],
        isStepP i = true ∨ harmlessBetweenPhases i) ∧
      [Instr.stepP 0#8, .rdst, .stepP 1#8, .wrs 20#8 7#32, .stepP 2#8, .rds 20#8, .stepP 3#8, .rdo 19#8,
        .stepP 4#8].filter isStepP = [.stepP 0#8, .stepP 1#8, .stepP 2#8, .stepP 3#8, .stepP 4#8] := by
  refine ⟨by decide, by decide, ?_, by decide⟩
  simp [isStepP, harmlessBetweenPhases]

theorem witness_StepRIsOneRound :
    (startAt 16).err = false ∧ 16 ∈ [0, 4, 8, 12, 16] ∧ (startAt 16).readW rotIndex = BitVec.ofNat 32 16 := by decide

theorem witness_FiveStepREqualStepU : (startAt 16).err = false ∧ (startAt 16).readW rotIndex = 16#32 := by decide

/-- The window of the last lane, with the last legal counter. -/
theorem witness_StepRIsScalarStreamForEver :
    (startAt 16).err = false ∧ 16 ∈ [0, 4, 8, 12, 16] ∧ (startAt 16).readW rotIndex = BitVec.ofNat 32 16 ∧
      wAt (startAt 16) ((16 + 4) % 20 + 3) = 4#32 ∧ wAt (startAt 16) ((16 + 8) % 20 + 3) = 8#32 ∧
      wAt (startAt 16) ((16 + 12) % 20 + 3) = 12#32 ∧ wAt (startAt 16) ((16 + 16) % 20 + 3) = 16#32 ∧
      wAt (startAt 16) ((16 + 20) % 20 + 3) = 20#32 := by
  decide

theorem witness_RingCounterCycle : (startAt 16).err = false ∧ counterLegal ((startAt 16).readW rotIndex) :=
  ⟨by decide, .inr (.inr (.inr (.inr (by decide))))⟩

theorem witness_StepPIsScalarStreamForEver : (startPh .phase4).err = false ∧ (startPh .phase4).ph = some .phase4 := by
  decide

theorem witness_StepUAtPhaseZeroContinuesStreams : start.err = false ∧ start.ph = some .phase0 := by decide

/-- Two states that differ in lane 1 and agree on lane 0; the three vector commands are executed in both. -/
theorem witness_LanesAreIndependent :
    (executes .stepR start ∧ executes .stepU start ∧ executes (.stepP 4#8) start) ∧
      (executes .stepR (start.writeW 5 99) ∧ executes .stepU (start.writeW 5 99) ∧
        executes (.stepP 4#8) (start.writeW 5 99)) ∧
      (start.writeW 5 99).readW rotIndex = start.readW rotIndex ∧ (start.writeW 5 99).ph = start.ph ∧
      laneAgrees 0 start (start.writeW 5 99) := by
  refine ⟨⟨⟨rfl, .inl rfl⟩, rfl, rfl, rfl, ?_⟩, ⟨⟨rfl, .inl rfl⟩, rfl, rfl, rfl, ?_⟩, rfl, rfl, by decide, by decide⟩
  all_goals (show (4#8).toNat ≤ 4; decide)

theorem witness_ResetAbandonsCommand :
    (startWith (.resetDuring 0x1000000000000000#64)).port = .resetDuring 0x1000000000000000#64 :: [] := by decide

/-- Every command is executed somewhere, at the last index of its range. -/
theorem witness_CommandsKeepToWriteSets :
    executes (.wrs 20#8 7#32) start ∧ executes (.rds 20#8) start ∧ executes (.rdo 19#8) start ∧ executes .rdst start ∧
      executes .stepS start ∧ executes .stepR (startAt 16) ∧ executes .stepU start ∧ executes (.stepP 4#8) start := by
  refine ⟨⟨rfl, ?_⟩, ?_, ?_, trivial, rfl, ⟨rfl, .inr (.inr (.inr (.inr rfl)))⟩, rfl, rfl, rfl, ?_⟩
  · decide
  · show (20#8).toNat ≤ 20; decide
  · show (19#8).toNat ≤ 19; decide
  · decide

/-- `STEP.U` is executed in two states that differ in `OUT`. -/
theorem witness_OutputsPerCommand :
    executes .stepU start ∧ (start.writeOut 7 99).w = start.w ∧ (start.writeOut 7 99).ph = start.ph ∧
      (start.writeOut 7 99).err = start.err := ⟨rfl, rfl, rfl, rfl⟩

/-- Two different states that agree on what `STEP.P` reads at cursor 0: slot 1 is not read. -/
theorem witness_ResultsDependOnReadSetsOnly :
    executes (.stepP 0#8) start ∧ executes (.stepP 0#8) (start.writeW 5 99) ∧
      agreeOnReads (.stepP 0#8) start (start.writeW 5 99) := by
  refine ⟨⟨rfl, rfl, by decide⟩, ⟨rfl, rfl, by decide⟩, by decide, rfl⟩

theorem witness_ReadsHaveNoSideEffect :
    start.err = false ∧ stateChanging (.rdo 19#8) = false ∧ executes (.rdo 19#8) faulted ∧ stateChanging (.rds 20#8) = false ∧
      executes (.rds 20#8) faulted ∧ stateChanging .rdst = false ∧ executes .rdst faulted ∧ start.port = [] := by
  refine ⟨rfl, rfl, ?_, rfl, ?_, rfl, trivial, rfl⟩
  · show (19#8).toNat ≤ 19; decide
  · show (20#8).toNat ≤ 20; decide

theorem witness_SeedWritesCommute : start.err = false ∧ (0#8).toNat ≤ 20 ∧ (20#8).toNat ≤ 20 ∧ 0#8 ≠ 20#8 := by decide

theorem witness_PseudoCommandsExpand : start.err = false ∧ (3 : Lane) ≠ 2 := by decide

/-- Every condition of R201 is met by some word in an unfaulted state. -/
theorem witness_FaultsAndTheirCauses :
    start.err = false ∧ decode start.hasPhase 0#64 = .error .unknownOp ∧
      decode start.hasPhase 0x0100001500000000#64 = .ok (.wrs 21#8 0#32) ∧ 20 < (21#8).toNat ∧
      decode start.hasPhase 0x0200001500000000#64 = .ok (.rds 21#8) ∧
      decode start.hasPhase 0x0300001400000000#64 = .ok (.rdo 20#8) ∧ 19 < (20#8).toNat ∧
      decode start.hasPhase 0x1300000500000000#64 = .ok (.stepP 5#8) ∧ 4 < (5#8).toNat ∧
      decode (startAt 1).hasPhase 0x1100000000000000#64 = .ok .stepR ∧
      ¬ counterLegal ((startAt 1).readW rotIndex) := by
  refine ⟨by decide, by decide, by decide, by decide, by decide, by decide, by decide, by decide, by decide,
    by decide, ?_⟩
  rintro (h | h | h | h | h) <;> exact absurd h (by decide)

/-- A first fault, and one while a fault is recorded. -/
theorem witness_FaultEntry : start.err = false ∧ faulted.err = true := by decide

/-- A command that answers with the error bit. -/
theorem witness_FaultsArePrecise :
    gives (runCommand 0x1300000500000000#64 start) (fun t => (t.responses.getLast?.map Response.e) == some true) = true := by
  decide

theorem witness_OrderOfChecks :
    decode faulted.hasPhase 0x0100010000000000#64 = .error .rsvNonzero ∧
      decode faulted.hasPhase 0x0100001500000000#64 = .ok (.wrs 21#8 0#32) ∧ faulted.err = true ∧
      stateChanging (.wrs 21#8 0#32) = true ∧ decode faulted.hasPhase 0x0200001500000000#64 = .ok (.rds 21#8) ∧
      ¬ executes (.rds 21#8) faulted ∧ ¬ executes (.rds 21#8) start ∧ ¬ executes .stepR (startAt 20) ∧
      start.err = false := by
  refine ⟨by decide, by decide, by decide, by decide, by decide, ?_, ?_, ?_, by decide⟩
  · show ¬ (21#8).toNat ≤ 20; decide
  · show ¬ (21#8).toNat ≤ 20; decide
  · rintro ⟨-, h | h | h | h | h⟩ <;> exact absurd h (by decide)

theorem witness_RefusedWhileFaulted :
    faulted.err = true ∧ stateChanging (.stepP 4#8) = true ∧ (20#8).toNat ≤ 20 ∧ (19#8).toNat ≤ 19 := by
  decide

theorem witness_FaultFreezesUntilReset : faulted.err = true := by decide

theorem witness_FirstCauseIsKept :
    faulted.err = true ∧ decode faulted.hasPhase 0xFF00000000000000#64 = .error .unknownOp ∧ 20 < (21#8).toNat ∧
      19 < (20#8).toNat := by
  decide

/-- A command that is executed, and one that is not. -/
theorem witness_OneResponsePerCommand :
    (startWith (.command 0x0200001400000000#64)).port = .command 0x0200001400000000#64 :: [] ∧
      decode (startWith (.command 0x0200001400000000#64)).hasPhase 0x0200001400000000#64 = .ok (.rds 20#8) ∧
      executes (.rds 20#8) (startWith (.command 0x0200001400000000#64)) := by
  refine ⟨rfl, by decide, ?_⟩
  show (20#8).toNat ≤ 20
  decide

/-- A word that decodes, and one that does not. -/
theorem witness_StepRunsDecodedCommand :
    (startWith (.command 0x1400000000000000#64)).port = .command 0x1400000000000000#64 :: [] ∧
      decode (startWith (.command 0x1400000000000000#64)).hasPhase 0x1400000000000000#64 = .error .unknownOp ∧
      (startWith (.command 0x1300000400000000#64)).port = .command 0x1300000400000000#64 :: [] ∧
      decode (startWith (.command 0x1300000400000000#64)).hasPhase 0x1300000400000000#64 = .ok (.stepP 4#8) := by
  decide

/-- A reset at the port; and steps that serve no reset: one while a fault is recorded, and one that advances the cursor
past 4. -/
theorem witness_ResetClearsFault :
    { faulted with port := [.reset] }.port = .reset :: [] ∧ faulted.hasPhase = true ∧
      gives (step { faulted with port := [.reset] }) (fun t => !t.err) = true ∧
      gives (step { faulted with port := [.command 0x0100000400000005#64] }) (fun t => t.err && t.cause == some .badRot) =
        true ∧
      gives (step { startPh .phase4 with port := [.command 0x1300000400000000#64] }) (fun t => t.ph == some .phase0) =
        true := by
  decide

theorem witness_EveryStepKeepsFlagsAgreeing : flagsAgree faulted ∧ flagsAgree start := by
  constructor <;> unfold flagsAgree <;> decide

/-- A write of the last legal counter, and a ring step. -/
theorem witness_EveryStepKeepsCounterLegal :
    counterLegal ((startWith (.command 0x0100001400000010#64)).readW rotIndex) ∧
      decode true 0x0100001400000010#64 = .ok (.wrs 20#8 16#32) ∧ keepsCounterLegal (.wrs 20#8 16#32) :=
  ⟨.inl (by decide), by decide, fun _ => .inr (.inr (.inr (.inr rfl)))⟩

theorem witness_CursorCountsCompletedPhases :
    (startWith .reset).hasPhase = true ∧ (startWith .reset).port = .reset :: [] ∧
      (startPh .phase4).ph = some .phase4 ∧ completedPhases [.stepP 0#8, .rdst, .stepP 5#8, .stepP 1#8] (startPh .phase4) = 1 := by
  decide

theorem witness_OnlyStepPMovesCursor :
    isStepP (.stepP 4#8) = true ∧ executes (.stepP 4#8) (startPh .phase4) ∧ (startPh .phase4).ph = some .phase4 ∧
      isStepP .stepU = false ∧ ¬ executes (.stepP 5#8) start := by
  exact ⟨rfl, ⟨rfl, rfl, by decide⟩, rfl, rfl, fun h => absurd h.2.2 (by decide)⟩

theorem witness_DecodeOfEncode :
    (Instr.stepP 255#8).wellFormed true = true ∧ (Instr.wrs 255#8 0xFFFFFFFF#32).wellFormed false = true ∧
      Instr.rdst.wellFormed false = true := by
  decide

theorem witness_EncodeOfDecode : decode false 0x010000FFFFFFFFFF#64 = .ok (.wrs 255#8 0xFFFFFFFF#32) := by decide

/-- A row that matches, and a word that matches none. -/
theorem witness_DecodeIsOpcodeMap :
    ⟨.stepP, .I, 0x13#8, 0x1300000000000000#64, 0xFFFFFF00FFFFFFFF#64⟩ ∈ opcodeRows ∧
      0x130000FF00000000#64 &&& 0xFFFFFF00FFFFFFFF#64 = 0x1300000000000000#64 ∧
      opcodeRows.all (fun r => 0x1400000000000000#64 &&& r.mask != r.value) = true := by
  decide

/-- One word for each way of being illegal. -/
theorem witness_IllegalWordsFault :
    0x00#8 ∉ [0x01#8, 0x02#8, 0x03#8, 0x04#8, 0x10#8, 0x11#8, 0x12#8, 0x13#8] ∧
      0x14#8 ∉ [0x01#8, 0x02#8, 0x03#8, 0x04#8, 0x10#8, 0x11#8, 0x12#8, 0x13#8] ∧ 0x8000#16 ≠ 0#16 ∧
      (0x12#8 ∈ [0x04#8, 0x10#8, 0x11#8, 0x12#8] ∧ (1#8 ≠ 0#8 ∨ 0#32 ≠ 0#32)) ∧
      (0x13#8 ∈ [0x02#8, 0x03#8, 0x13#8] ∧ 1#32 ≠ 0#32) ∧ (0x13#8 = 0x13#8 ∧ startNoPhase.hasPhase = false) := by
  decide

theorem witness_ResetStateValues : 0 < 20 ∧ 19 < 20 := by decide

theorem witness_LittleEndianViews : 0 < 8 ∧ 7 < 8 := by decide

end Sys2Proof.Tests
end

section
/-! The state after reset (10_state.md R40): the fields of `State.atReset`, and what its two files hold, read by word
number. -/

namespace Sys2Proof.Proofs

open Sys2Proof.Machine Sys2Proof.Claims

/-! A read by number is the read of the file at that index. -/

theorem wAt_eq_readW {k : Nat} (s : State) (hk : k < 21) : wAt s k = s.readW ⟨k, hk⟩ := dif_pos hk

theorem outAt_eq_readOut {k : Nat} (s : State) (hk : k < 20) : outAt s k = s.readOut ⟨k, hk⟩ := dif_pos hk

/-! The reset files are written out word by word; each word is found at its own number. -/

theorem resetWords_getElem_of_lt {k : Nat} (n : Nat) (hk : k < 20) : (resetWords n)[k] = Config.resetW n k := by
  interval_cases k <;> rfl

theorem resetOutputs_getElem {k : Nat} (n : Nat) (hk : k < 20) : (resetOutputs n)[k] = Config.resetOut n k := by
  interval_cases k <;> rfl

/-! The fields of the reset state, and its words by number. -/

section
variable (b : Bool) (n : Nat) (p : List HostEvent) (r : List Response)

@[simp] theorem atReset_ph : (State.atReset b n p r).ph = if b then some .phase0 else none := rfl
@[simp] theorem atReset_err : (State.atReset b n p r).err = false := rfl
@[simp] theorem atReset_cause : (State.atReset b n p r).cause = none := rfl

/-- The rotation counter. -/
@[simp] theorem wAt_atReset_rotIndex : wAt (State.atReset b n p r) 20 = 0#32 :=
  wAt_eq_readW _ (by decide)

/-- The data words, of which nothing is known but that they are `RESET_W`. -/
theorem wAt_atReset_of_lt {k : Nat} (hk : k < 20) : wAt (State.atReset b n p r) k = Config.resetW n k :=
  calc wAt (State.atReset b n p r) k
    _ = (State.atReset b n p r).readW ⟨k, by omega⟩ := wAt_eq_readW _ _
    _ = Config.resetW n k := resetWords_getElem_of_lt n hk

/-- The output words, of which nothing is known but that they are `RESET_OUT`. -/
theorem outAt_atReset {k : Nat} (hk : k < 20) : outAt (State.atReset b n p r) k = Config.resetOut n k :=
  calc outAt (State.atReset b n p r) k
    _ = (State.atReset b n p r).readOut ⟨k, hk⟩ := outAt_eq_readOut _ _
    _ = Config.resetOut n k := resetOutputs_getElem n hk

end

/-- Settles O46: the power-on state is the reset state of the block with the phase unit, and the lemmas about
`State.atReset` give every field and word. -/
theorem resetStateValues : Obligations.ResetStateValues := by
  unfold Obligations.ResetStateValues
  constructor
  case left =>
    exact ⟨atReset_ph Config.hasPhase 0 [] [], atReset_err .., atReset_cause .., wAt_atReset_rotIndex ..⟩
  case right =>
    intro n p r
    refine ⟨atReset_ph false n p r, atReset_ph true n p r, fun b => ?_⟩
    exact ⟨atReset_err b n p r, atReset_cause b n p r, wAt_atReset_rotIndex b n p r,
      fun _ hk => wAt_atReset_of_lt b n p r hk, fun _ hk => outAt_atReset b n p r hk⟩

end Sys2Proof.Proofs
end

section
/-! Reads and writes of single words (20_memory.md R58): the exact state after any number of reads in a row, and after a
write by index. -/

namespace Sys2Proof.Proofs

open Sys2Proof.Machine Sys2Proof.Safety Sys2Proof.Claims

/-! A completed read adds its response, and every field it can read again is as it was. -/

/-- The state with the response `rsp(0, d)` returned `n` more times, and nothing else changed. -/
def answeredTimes (n : Nat) (d : Word) (s : State) : State :=
  { s with responses := s.responses ++ List.replicate n ⟨false, d⟩ }

@[simp] theorem answeredTimes_zero (d : Word) (s : State) : answeredTimes 0 d s = s := by simp [answeredTimes]

theorem respond_answeredTimes (n : Nat) (d : Word) (s : State) :
    (answeredTimes n d s).respond false d = answeredTimes (n + 1) d s := by
  simp [answeredTimes, State.respond, List.replicate_succ']

/-- Whether a command is executed does not depend on the responses returned so far. -/
theorem executes_answeredTimes {i : Instr} {s : State} (h : executes i s) (n : Nat) (d : Word) :
    executes i (answeredTimes n d s) := by
  cases i <;> exact h

/-- What a command answers does not depend on the responses returned so far. -/
@[simp] theorem answerData_answeredTimes (i : Instr) (n : Nat) (d : Word) (s : State) :
    answerData i (answeredTimes n d s) = answerData i s := by
  cases i <;> rfl

/-- A read's whole effect is its response. -/
theorem effect_of_read {i : Instr} {s : State} (hread : stateChanging i = false) (h : executes i s) :
    effect i s = s.respond false (answerData i s) := by
  cases i with
  | rds idx =>
    have hi : idx.toNat ≤ 20 := h
    simp [effect, answerData, wOperand_of_le hi, wAt_eq_readW s (Nat.lt_succ_of_le hi)]
  | rdo idx =>
    have hi : idx.toNat ≤ 19 := h
    simp [effect, answerData, outOperand_of_le hi, outAt_eq_readOut s (Nat.lt_succ_of_le hi)]
  | rdst => rfl
  | wrs | stepS | stepR | stepU | stepP => cases hread

/-- `n` reads in a row return the same response `n` times and do nothing else. -/
theorem execAll_replicate_read {i : Instr} {s : State} (hread : stateChanging i = false) (h : executes i s) (n : Nat) :
    execAll (List.replicate n i) s = .next (answeredTimes n (answerData i s) s) := by
  have read_once : ∀ n t, t = answeredTimes n (answerData i s) s →
      ∃ u, exec i t = .next u ∧ u = answeredTimes (n + 1) (answerData i s) s := by
    rintro n _ rfl
    have hn := executes_answeredTimes h n (answerData i s)
    refine ⟨_, exec_of_executes hn, ?_⟩
    rw [effect_of_read hread hn, answerData_answeredTimes, respond_answeredTimes]
  obtain ⟨_, hrun, rfl⟩ := execAll_replicate read_once (answeredTimes_zero ..).symm n
  exact hrun

/-! A write reaches each word by the number of its index. -/

theorem exec_wrs_ofNat {s : State} (he : s.err = false) (i : Fin 21) (v : Word) :
    exec (.wrs (BitVec.ofNat 8 i.val) v) s = .next ((s.writeW i v).respond false 0#32) := by
  have hi : (BitVec.ofNat 8 i.val).toNat = i.val := by rw [BitVec.toNat_ofNat]; omega
  have hle : (BitVec.ofNat 8 i.val).toNat ≤ 20 := by omega
  simpa only [hi] using exec_wrs (data := v) he hle

/-- Settles O33: the state after the reads and after the write is known exactly, and an idle step is `step_idle`. -/
theorem readsHaveNoSideEffect : Obligations.ReadsHaveNoSideEffect := by
  unfold Obligations.ReadsHaveNoSideEffect
  refine ⟨?reads, ?write, fun s hport => step_idle hport⟩
  case reads =>
    intro i s n hread h
    exact ⟨_, execAll_replicate_read hread h n, rfl, fun _ => rfl, fun _ => rfl, rfl, ⟨rfl, rfl⟩, ⟨rfl, rfl⟩⟩
  case write =>
    intro s i v he
    exact ⟨_, exec_wrs_ofNat he i v, readW_writeW_same s i v, fun _ hk => readW_writeW_other hk v, fun _ => rfl, rfl,
      ⟨rfl, rfl⟩, ⟨rfl, rfl⟩⟩

end Sys2Proof.Proofs
end

section
/-! The opcode map (30_encoding.md R71 to R76): a row's mask and match read as the four fields of a word, the rows by
their mnemonics, and the words that do not decode. -/

namespace Sys2Proof.Proofs

open Sys2Proof.Machine Sys2Proof.Claims

/-! Words made of four fields: equal field by field, masked field by field. -/

theorem fields_inj {op op' : BitVec 8} {rsv rsv' : BitVec 16} {idx idx' : BitVec 8} {data data' : Word} :
    op ++ rsv ++ idx ++ data = op' ++ rsv' ++ idx' ++ data' ↔ op = op' ∧ rsv = rsv' ∧ idx = idx' ∧ data = data' := by
  constructor
  · intro h
    have hop := congrArg opField h
    have hrsv := congrArg rsvField h
    have hidx := congrArg idxField h
    have hdata := congrArg dataField h
    simp only [opField_fields, rsvField_fields, idxField_fields, dataField_fields] at hop hrsv hidx hdata
    exact ⟨hop, hrsv, hidx, hdata⟩
  · rintro ⟨rfl, rfl, rfl, rfl⟩
    rfl

theorem fields_and (op op' : BitVec 8) (rsv rsv' : BitVec 16) (idx idx' : BitVec 8) (data data' : Word) :
    ((op ++ rsv ++ idx ++ data : BitVec 64) &&& (op' ++ rsv' ++ idx' ++ data') : BitVec 64) =
      (op &&& op') ++ (rsv &&& rsv') ++ (idx &&& idx') ++ (data &&& data') := by
  rw [← BitVec.and_append, ← BitVec.and_append, ← BitVec.and_append]

/-- The bits of `idx` a format fixes (30_encoding.md R72): all of them where the format has no index. -/
def idxMask : Format → BitVec 8
  | .Z => BitVec.allOnes 8
  | .I => 0#8
  | .D => 0#8

/-- The bits of `data` a format fixes (30_encoding.md R72): all of them where the format has no data word. -/
def dataMask : Format → Word
  | .Z => BitVec.allOnes 32
  | .I => BitVec.allOnes 32
  | .D => 0#32

theorem and_idxMask_eq_zero (f : Format) (idx : BitVec 8) : idx &&& idxMask f = 0#8 ↔ (f = .Z → idx = 0#8) := by
  cases f <;> simp [idxMask, -BitVec.reduceAllOnes]

theorem and_dataMask_eq_zero (f : Format) (data : Word) : data &&& dataMask f = 0#32 ↔ (f ≠ .D → data = 0#32) := by
  cases f <;> simp [dataMask, -BitVec.reduceAllOnes]

theorem rowMask_eq_fields (m : Mnemonic) :
    m.rowMask = BitVec.allOnes 8 ++ BitVec.allOnes 16 ++ idxMask m.format ++ dataMask m.format := by
  cases m <;> decide

theorem rowMatch_eq_fields (m : Mnemonic) : m.rowMatch = m.opcode ++ 0#16 ++ 0#8 ++ 0#32 := by
  cases m <;> decide

/-- A word matches a row exactly when its opcode is the row's and the fields the row's format does not use are 0. -/
theorem and_rowMask_eq_rowMatch {m : Mnemonic} {c : BitVec 64} :
    c &&& m.rowMask = m.rowMatch ↔
      opField c = m.opcode ∧ rsvField c = 0#16 ∧ (m.format = .Z → idxField c = 0#8) ∧
        (m.format ≠ .D → dataField c = 0#32) := by
  have hand : c &&& m.rowMask =
      opField c ++ rsvField c ++ (idxField c &&& idxMask m.format) ++ (dataField c &&& dataMask m.format) := by
    conv_lhs => rw [← fields_eq c, rowMask_eq_fields]
    rw [fields_and, BitVec.and_allOnes, BitVec.and_allOnes]
  rw [hand, rowMatch_eq_fields, fields_inj, and_idxMask_eq_zero, and_dataMask_eq_zero]

/-- A word decodes to a command of a row exactly when it matches the row and the block has the row's command. -/
theorem decode_mnemonic_iff {hasPhase : Bool} {c : BitVec 64} {m : Mnemonic} :
    (∃ i, decode hasPhase c = .ok i ∧ i.mnemonic = m) ↔
      c &&& m.rowMask = m.rowMatch ∧ (m = .stepP → hasPhase = true) := by
  rw [and_rowMask_eq_rowMatch]
  constructor
  · rintro ⟨i, hdec, rfl⟩
    obtain ⟨m, hrsv, hop, hidx, hdata, hunit, rfl⟩ := decode_eq_ok.mp hdec
    rw [mnemonic_command]
    exact ⟨⟨hop, hrsv, hidx, hdata⟩, hunit⟩
  · rintro ⟨⟨hop, hrsv, hidx, hdata⟩, hunit⟩
    exact ⟨_, decode_eq_ok.mpr ⟨m, hrsv, hop, hidx, hdata, hunit, rfl⟩, mnemonic_command ..⟩

/-! The rows of the table are the model's mnemonics with their columns. -/

/-- The row of a mnemonic, its columns as the model has them. -/
def rowOf (m : Mnemonic) : OpcodeRow := ⟨m, m.format, m.opcode, m.rowMatch, m.rowMask⟩

theorem mem_opcodeRows {r : OpcodeRow} : r ∈ opcodeRows ↔ ∃ m, rowOf m = r := by
  have rows_eq : opcodeRows = Mnemonic.all.map rowOf := rfl
  have mem_all : ∀ m : Mnemonic, m ∈ Mnemonic.all := by
    intro m
    cases m <;> decide
  simp [rows_eq, mem_all]

theorem opcode_inj {m m' : Mnemonic} (h : m.opcode = m'.opcode) : m = m' := by
  simpa using congrArg Mnemonic.ofOpcode h

/-- Settles O56: the rows are the model's, and matching one is a statement about the four fields. -/
theorem decodeIsOpcodeMap : Obligations.DecodeIsOpcodeMap := by
  unfold Obligations.DecodeIsOpcodeMap
  simp only [mem_opcodeRows, forall_exists_index, forall_apply_eq_imp_iff]
  refine ⟨fun m hasPhase c => decode_mnemonic_iff, ?disjoint, ?illegal, ?columns⟩
  case disjoint =>
    intro m m' c h h'
    obtain ⟨hop, -⟩ := and_rowMask_eq_rowMatch.mp h
    obtain ⟨hop', -⟩ := and_rowMask_eq_rowMatch.mp h'
    rw [opcode_inj (hop.symm.trans hop')]
  case illegal =>
    intro hasPhase c hnone
    cases hdec : decode hasPhase c with
    | error e => exact ⟨e, rfl⟩
    | ok i => exact absurd (decode_mnemonic_iff.mp ⟨i, hdec, rfl⟩).1 (hnone i.mnemonic)
  case columns =>
    intro m
    refine ⟨rfl, rfl, ?_, ?_⟩ <;> cases m <;> decide

/-! The words that do not decode. -/

/-- A word whose opcode is a row's is illegal for its other fields, or because the phase unit is absent (R75 steps 1
and 3 to 5). -/
theorem decode_opcode_error_iff {hasPhase : Bool} {m : Mnemonic} {rsv : BitVec 16} {idx : BitVec 8} {data : Word} :
    (∃ e, decode hasPhase (word m.opcode rsv idx data) = .error e) ↔
      rsv ≠ 0#16 ∨ (m.format = .Z ∧ (idx ≠ 0#8 ∨ data ≠ 0#32)) ∨ (m.format = .I ∧ data ≠ 0#32) ∨
        (m = .stepP ∧ hasPhase = false) := by
  have not_D : m.format ≠ .D ↔ m.format = .Z ∨ m.format = .I := by cases m.format <;> decide
  rw [word, decode_fields, ofOpcode_opcode]
  simp only [not_D]
  split_ifs with hrsv hidx hdata hunit
  · exact iff_of_true ⟨_, rfl⟩ (.inl hrsv)
  · exact iff_of_true ⟨_, rfl⟩ (.inr (.inl ⟨hidx.1, .inl hidx.2⟩))
  · exact iff_of_true ⟨_, rfl⟩ (by tauto)
  · exact iff_of_true ⟨_, rfl⟩ (.inr (.inr (.inr hunit)))
  · exact iff_of_false nofun (by tauto)

/-- A word whose opcode is no row's is illegal (R75 steps 1 and 2). -/
theorem decode_unknown_opcode {op : BitVec 8} (hop : Mnemonic.ofOpcode op = none) (hasPhase : Bool) (rsv : BitVec 16)
    (idx : BitVec 8) (data : Word) : ∃ e, decode hasPhase (word op rsv idx data) = .error e := by
  rw [word, decode_fields, hop]
  split_ifs
  · exact ⟨_, rfl⟩
  · exact ⟨_, rfl⟩

/-- A word that does not decode takes `ILLEGAL_CMD` and changes nothing else. -/
theorem runCommand_faultedTo {s : State} {c : BitVec 64} {e : Illegal} (h : decode s.hasPhase c = .error e) :
    ∃ t, runCommand c s = .next t ∧ faultedTo .illegalCmd s t := by
  refine ⟨_, runCommand_error h, raise_err .., ?first, ?later, readW_raise s _, readOut_raise s _, raise_ph ..,
    ⟨raise_port .., raise_resets ..⟩, raise_responses ..⟩
  case first =>
    intro he
    simp [he]
  case later =>
    intro he
    simp [he]

/-! The opcode lists of R76, by row. -/

theorem opcode_mem_all (m : Mnemonic) :
    m.opcode ∈ [0x01#8, 0x02#8, 0x03#8, 0x04#8, 0x10#8, 0x11#8, 0x12#8, 0x13#8] := by
  cases m <;> decide

theorem opcode_mem_formatZ (m : Mnemonic) : m.opcode ∈ [0x04#8, 0x10#8, 0x11#8, 0x12#8] ↔ m.format = .Z := by
  cases m <;> decide

theorem opcode_mem_formatI (m : Mnemonic) : m.opcode ∈ [0x02#8, 0x03#8, 0x13#8] ↔ m.format = .I := by
  cases m <;> decide

theorem opcode_eq_stepP (m : Mnemonic) : m.opcode = 0x13#8 ↔ m = .stepP := by
  cases m <;> decide

theorem not_mem_opcodes {op : BitVec 8} (h : Mnemonic.ofOpcode op = none) :
    op ∉ [0x01#8, 0x02#8, 0x03#8, 0x04#8, 0x10#8, 0x11#8, 0x12#8, 0x13#8] := by
  intro hmem
  have ops_eq : [0x01#8, 0x02#8, 0x03#8, 0x04#8, 0x10#8, 0x11#8, 0x12#8, 0x13#8] =
      Mnemonic.all.map Mnemonic.opcode := rfl
  obtain ⟨m, -, hm⟩ := List.mem_map.mp (ops_eq ▸ hmem)
  exact ofOpcode_eq_none h m hm.symm

/-- The words R76 lists are those that do not decode. -/
theorem decode_word_error_iff {hasPhase : Bool} {op : BitVec 8} {rsv : BitVec 16} {idx : BitVec 8} {data : Word} :
    (op ∉ [0x01#8, 0x02#8, 0x03#8, 0x04#8, 0x10#8, 0x11#8, 0x12#8, 0x13#8] ∨ rsv ≠ 0#16 ∨
      (op ∈ [0x04#8, 0x10#8, 0x11#8, 0x12#8] ∧ (idx ≠ 0#8 ∨ data ≠ 0#32)) ∨
      (op ∈ [0x02#8, 0x03#8, 0x13#8] ∧ data ≠ 0#32) ∨ (op = 0x13#8 ∧ hasPhase = false)) ↔
    ∃ e, decode hasPhase (word op rsv idx data) = .error e := by
  cases hop : Mnemonic.ofOpcode op with
  | none => exact iff_of_true (.inl (not_mem_opcodes hop)) (decode_unknown_opcode hop ..)
  | some m =>
    obtain rfl := ofOpcode_eq_some hop
    rw [decode_opcode_error_iff, opcode_mem_formatZ, opcode_mem_formatI, opcode_eq_stepP]
    exact or_iff_right (not_not_intro (opcode_mem_all m))

/-- Settles O57: the listed words are those that do not decode, and every such word is answered by the fault. -/
theorem illegalWordsFault : Obligations.IllegalWordsFault := by
  unfold Obligations.IllegalWordsFault
  intro s op rsv idx data
  rw [decode_word_error_iff]
  exact (and_iff_left_of_imp fun ⟨_, hdec⟩ => runCommand_faultedTo hdec).symm

end Sys2Proof.Proofs
end

section
/-! The port's answer to a command (30_encoding.md R82): one response, which is the command's data where it is executed
and `rsp(1, 0)` everywhere else. -/

namespace Sys2Proof.Proofs

open Sys2Proof.Machine Sys2Proof.Safety Sys2Proof.Claims

/-- An executed command answers error bit 0 and the table's data. -/
theorem effect_responses {i : Instr} {s : State} (h : executes i s) :
    (effect i s).responses = s.responses ++ [⟨false, answerData i s⟩] := by
  cases i with
  | rds | rdo | rdst => rw [effect_of_read rfl h]; rfl
  | wrs idx data =>
    obtain ⟨-, hi⟩ := h
    simp [effect, answerData, wOperand_of_le hi]
  | stepS | stepU => simp [effect, answerData]
  | stepR =>
    obtain ⟨-, hc⟩ := h
    obtain ⟨q, hq⟩ := (counterLegal_iff _).mp hc
    simp [effect, answerData, hq]
  | stepP d =>
    obtain ⟨hp, -, hd⟩ := h
    obtain ⟨k, hk⟩ := Option.isSome_iff_exists.mp hp
    simp [effect, answerData, hk, sliceOperand_of_le hd]

/-- A command word leaves the rest of the port alone and is answered once: by its command's data where that is
executed, by `rsp(1, 0)` otherwise. -/
theorem runCommand_response (s : State) (c : BitVec 64) :
    ∃ t r, runCommand c s = .next t ∧ t.port = s.port ∧ t.responses = s.responses ++ [r] ∧
      ((∃ i, decode s.hasPhase c = .ok i ∧ executes i s ∧ r = ⟨false, answerData i s⟩) ∨
        ((∀ i, decode s.hasPhase c = .ok i → ¬ executes i s) ∧ r = ⟨true, 0#32⟩)) := by
  rcases runCommand_cases s c with ⟨i, hdec, hex, hrun⟩ | ⟨hno, ⟨-, hrun⟩ | ⟨f, hrun⟩⟩
  · obtain ⟨-, -, hport, -, -⟩ := effect_frame i s
    exact ⟨_, _, hrun, hport, effect_responses hex, .inl ⟨i, hdec, hex, rfl⟩⟩
  · exact ⟨_, _, hrun, refuse_port s, refuse_responses s, .inr ⟨hno, rfl⟩⟩
  · exact ⟨_, _, hrun, raise_port s f, raise_responses s f, .inr ⟨hno, rfl⟩⟩

/-! Neither the checks of a command nor its data depend on what else is at the port or on the responses so far. -/

theorem executes_port_responses (i : Instr) (s : State) (p : List HostEvent) (r : List Response) :
    executes i { s with port := p, responses := r } ↔ executes i s := by
  cases i <;> rfl

theorem answerData_port_responses (i : Instr) (s : State) (p : List HostEvent) (r : List Response) :
    answerData i { s with port := p, responses := r } = answerData i s := by
  cases i <;> rfl

/-- Settles O43: the step runs the word taken from the port, and `runCommand_response` gives its one response. -/
theorem oneResponsePerCommand : Obligations.OneResponsePerCommand := by
  unfold Obligations.OneResponsePerCommand
  intro s c rest hport
  obtain ⟨t, r, hrun, htport, hresp, hr⟩ := runCommand_response { s with port := rest } c
  simp only [executes_port_responses, answerData_port_responses] at hr
  refine ⟨t, r, (step_command hport).trans hrun, htport, hresp, ?_⟩
  rcases hr with ⟨i, hdec, hex, rfl⟩ | ⟨hno, rfl⟩
  case inl =>
    refine ⟨nofun, iff_of_true rfl ⟨i, hdec, hex⟩, fun j hj _ => ?_⟩
    obtain rfl : i = j := Except.ok.inj (hdec.symm.trans hj)
    rfl
  case inr =>
    exact ⟨fun _ => rfl, iff_of_false nofun fun ⟨i, hdec, hex⟩ => hno i hdec hex,
      fun i hdec hex => absurd hex (hno i hdec)⟩

end Sys2Proof.Proofs
end

section
/-! The pseudo-commands (30_encoding.md R84): what a sequence of writes, and what a sequence of reads, does from any
state. -/

namespace Sys2Proof.Proofs

open Sys2Proof.Machine Sys2Proof.Safety Sys2Proof.Claims

/-! A sequence of writes, each by the number of its index. -/

/-- The commands that write the given words, in order. -/
def wrsEach (l : List (Fin 21 × Word)) : List Instr := l.map fun p => .wrs (BitVec.ofNat 8 p.1.val) p.2

/-- The state after those commands: the words written in order, one `rsp(0, 0)` for each, and nothing else changed. -/
def writtenEach (l : List (Fin 21 × Word)) (s : State) : State :=
  { s with
    w := l.foldl (fun w p => w.set p.1.val p.2) s.w
    responses := s.responses ++ List.replicate l.length ⟨false, 0#32⟩ }

@[simp] theorem writtenEach_nil (s : State) : writtenEach [] s = s := by simp [writtenEach]

@[simp] theorem writtenEach_cons (p : Fin 21 × Word) (l : List (Fin 21 × Word)) (s : State) :
    writtenEach (p :: l) s = writtenEach l ((s.writeW p.1 p.2).respond false 0#32) := by
  simp [writtenEach, State.writeW, State.respond, List.replicate_succ]

theorem execAll_wrsEach {s : State} (he : s.err = false) (l : List (Fin 21 × Word)) :
    execAll (wrsEach l) s = .next (writtenEach l s) := by
  induction l generalizing s with
  | nil => simp [wrsEach, execAll]
  | cons p l ih =>
    rw [writtenEach_cons, ← ih (s := (s.writeW p.1 p.2).respond false 0#32) he]
    exact execAll_cons (exec_wrs_ofNat he p.1 p.2)

/-- A word the sequence does not write is unchanged. -/
theorem readW_writtenEach_other {l : List (Fin 21 × Word)} {k : Fin 21} (hk : ∀ p ∈ l, k ≠ p.1) (s : State) :
    (writtenEach l s).readW k = s.readW k := by
  induction l generalizing s with
  | nil => simp
  | cons p l ih =>
    obtain ⟨hp, hl⟩ := List.forall_mem_cons.mp hk
    rw [writtenEach_cons, ih hl, readW_respond, readW_writeW_other hp]

/-! A sequence of reads. -/

/-- The state after reads have answered: their responses in order, and nothing else changed. -/
def answeredEach (is : List Instr) (s : State) : State :=
  { s with responses := s.responses ++ is.map fun i => ⟨false, answerData i s⟩ }

theorem execAll_reads {is : List Instr} {s : State} (h : ∀ i ∈ is, stateChanging i = false ∧ executes i s) :
    execAll is s = .next (answeredEach is s) := by
  induction is generalizing s with
  | nil => simp [answeredEach, execAll]
  | cons i is ih =>
    obtain ⟨⟨hread, hex⟩, hrest⟩ := List.forall_mem_cons.mp h
    have hexec : exec i s = .next (s.respond false (answerData i s)) := by
      rw [exec_of_executes hex, effect_of_read hread hex]
    have hrest' : ∀ j ∈ is, stateChanging j = false ∧ executes j (s.respond false (answerData i s)) := fun j hj =>
      (hrest j hj).imp_right (executes_port_responses j s ..).mpr
    rw [execAll_cons hexec, ih hrest']
    simp [answeredEach, State.respond, answerData_port_responses]

theorem toNat_outIndex {n : Nat} (hn : n < 20) : (BitVec.ofNat 8 n).toNat = n := by
  rw [BitVec.toNat_ofNat]
  omega

theorem executes_rdo_ofNat {n : Nat} (hn : n < 20) (s : State) : executes (.rdo (BitVec.ofNat 8 n)) s := by
  rw [executes, toNat_outIndex hn]
  omega

theorem answerData_rdo_ofNat {n : Nat} (hn : n < 20) (s : State) :
    answerData (.rdo (BitVec.ofNat 8 n)) s = outAt s n := by
  rw [answerData, toNat_outIndex hn]

/-! The pseudo-commands, as sequences of writes and of reads. -/

/-- The words `SEED.S` writes. -/
def scalarSeed (a : Window) : List (Fin 21 × Word) := [(0, a.s0), (1, a.s1), (2, a.s2), (3, a.s3), (4, a.s4)]

/-- The words `SEED.L` writes. -/
def laneSeed (j : Lane) (a : Window) : List (Fin 21 × Word) :=
  [(wIndex 0 j, a.s0), (wIndex 1 j, a.s1), (wIndex 2 j, a.s2), (wIndex 3 j, a.s3), (wIndex 4 j, a.s4)]

theorem expandPseudo_seedS (a : Window) : expandPseudo (.seedS a) = wrsEach (scalarSeed a) := rfl

theorem expandPseudo_seedL (j : Lane) (a : Window) : expandPseudo (.seedL j a) = wrsEach (laneSeed j a) := by
  simp [expandPseudo, wrsEach, laneSeed]

/-- `SEED.S` loads the scalar window. -/
theorem scalarWindow_scalarSeed (a : Window) (s : State) : (writtenEach (scalarSeed a) s).scalarWindow = a := by
  simp [State.scalarWindow, scalarSeed, readW_writeW]

/-- `SEED.L j` loads word `a_m` into lane `j` of slot `m`. -/
theorem window_laneSeed (j : Lane) (a : Window) (s : State) : (writtenEach (laneSeed j a) s).window 0 j = a := by
  simp [State.window, laneSeed, readW_writeW, wIndex_inj]

/-- The window that starts at slot 1 is the one that starts at slot 0, its oldest word read last (10_state.md R27). -/
theorem window_one (s : State) (j : Lane) :
    s.window 1 j =
      ⟨(s.window 0 j).s1, (s.window 0 j).s2, (s.window 0 j).s3, (s.window 0 j).s4, (s.window 0 j).s0⟩ := rfl

/-- Settles O35: the expansions are sequences of writes and of reads, whose states are `writtenEach` and
`answeredEach`. -/
theorem pseudoCommandsExpand : Obligations.PseudoCommandsExpand := by
  unfold Obligations.PseudoCommandsExpand
  refine ⟨fun _ _ _ _ _ => rfl, fun _ _ _ _ _ _ => rfl, fun _ => rfl, rfl, fun _ => rfl, ?seedS, ?seedL, ?rot, ?rdo4⟩
  case seedS =>
    intro s a he
    rw [expandPseudo_seedS]
    have hscalar : ∀ p ∈ scalarSeed a, p.1.val ≤ 4 := by
      simp [scalarSeed]
    have hother : ∀ k : Fin 21, 4 < k.val → ∀ p ∈ scalarSeed a, k ≠ p.1 := by
      rintro _ hk p hp rfl
      exact absurd hk (Nat.not_lt.mpr (hscalar p hp))
    exact ⟨_, execAll_wrsEach he _, scalarWindow_scalarSeed a s, fun k hk => readW_writtenEach_other (hother k hk) s,
      fun _ => rfl, rfl, ⟨rfl, rfl⟩, ⟨rfl, rfl⟩, rfl⟩
  case seedL =>
    intro s j a he
    rw [expandPseudo_seedL]
    have hlane : ∀ q j', j' ≠ j → ∀ p ∈ laneSeed j a, wIndex q j' ≠ p.1 := by
      intro q j' hj
      simp [laneSeed, wIndex_inj, hj]
    have hrot : ∀ p ∈ laneSeed j a, rotIndex ≠ p.1 := by
      simp [laneSeed, (wIndex_ne_rot _ _).symm]
    exact ⟨_, execAll_wrsEach he _, window_laneSeed j a s, by rw [window_one, window_laneSeed],
      fun q j' hj => readW_writtenEach_other (hlane q j' hj) s, readW_writtenEach_other hrot s,
      fun _ => rfl, rfl, ⟨rfl, rfl⟩, ⟨rfl, rfl⟩, rfl⟩
  case rot =>
    intro s c he
    have hexec : exec (.wrs 20#8 c) s = .next ((s.writeW rotIndex c).respond false 0#32) := exec_wrs_ofNat he rotIndex c
    exact ⟨_, execAll_cons hexec, readW_writeW_same s rotIndex c, fun _ hk => readW_writeW_other hk c,
      fun _ => rfl, rfl, ⟨rfl, rfl⟩, ⟨rfl, rfl⟩, rfl⟩
  case rdo4 =>
    intro s d
    have hreads : ∀ i ∈ expandPseudo (.rdo4 d), stateChanging i = false ∧ executes i s := by
      simp (disch := omega) [expandPseudo, stateChanging, executes_rdo_ofNat]
    have hresp : (answeredEach (expandPseudo (.rdo4 d)) s).responses = s.responses ++
        [⟨false, outAt s (4 * d.val)⟩, ⟨false, outAt s (4 * d.val + 1)⟩, ⟨false, outAt s (4 * d.val + 2)⟩,
         ⟨false, outAt s (4 * d.val + 3)⟩] := by
      simp (disch := omega) [answeredEach, expandPseudo, answerData_rdo_ofNat]
    exact ⟨_, execAll_reads hreads, fun _ => rfl, fun _ => rfl, rfl, ⟨rfl, rfl⟩, ⟨rfl, rfl⟩, hresp⟩

end Sys2Proof.Proofs
end

section
/-! The three word functions and the lane step (40_recurrence_scalar.md R100 to R103): their bits, their values as
numbers, and the input they do not depend on. -/

namespace Sys2Proof.Proofs

open Sys2Proof.Machine

/-! Shifts and doublings of a word. -/

/-- A right shift by 7 has no bits of the word left past bit 24. -/
theorem getLsbD_shiftRight_seven_of_ge (a : Word) {n : Nat} (hn : 25 ≤ n) : (a >>> 7).getLsbD n = false := by
  rw [BitVec.getLsbD_ushiftRight]
  exact BitVec.getLsbD_of_ge a (7 + n) (by omega)

/-- A left shift is a product whose bits past bit 31 are dropped. -/
theorem shiftLeft_eq_ofNat_mul_mod (x : Word) (n : Nat) : x <<< n = BitVec.ofNat 32 (x.toNat * 2 ^ n % 2 ^ 32) := by
  apply BitVec.eq_of_toNat_eq
  rw [BitVec.toNat_shiftLeft, Nat.shiftLeft_eq, BitVec.toNat_ofNat, Nat.mod_mod]

theorem add_self_eq_shiftLeft_one (y : Word) : y + y = y <<< 1 :=
  calc y + y
    _ = y * BitVec.twoPow 32 1 := (mul_two y).symm
    _ = y <<< 1 := (BitVec.shiftLeft_eq_mul_twoPow y 1).symm

/-- Doubling drops bit 31. -/
theorem add_self_xor_msb (y : Word) : (y ^^^ 0x80000000#32) + (y ^^^ 0x80000000#32) = y + y := by
  have msb_dropped : 0x80000000#32 <<< 1 = 0#32 := by decide
  rw [add_self_eq_shiftLeft_one, BitVec.shiftLeft_xor_distrib, msb_dropped, BitVec.xor_zero,
    add_self_eq_shiftLeft_one]

/-! The word functions. -/

theorem getLsbD_xsT (a : Word) (n : Nat) : (xsT a).getLsbD n = (a.getLsbD n ^^ (a >>> 7).getLsbD n) :=
  BitVec.getLsbD_xor

/-- The multiplier of the output, before the reduction. -/
theorem toNat_multiplier (y : Word) : (y + y + 1#32).toNat = (y.toNat + y.toNat + 1) % 2 ^ 32 := by
  simp

theorem toNat_xsOut (y v : Word) : (xsOut y v).toNat = (y.toNat + y.toNat + 1) % 2 ^ 32 * v.toNat % 2 ^ 32 := by
  rw [xsOut, BitVec.toNat_mul, toNat_multiplier]

/-- The multiplier is odd: the reduction is by an even number. -/
theorem getLsbD_zero_multiplier (y : Word) : (y + y + 1#32).getLsbD 0 = true := by
  rw [← BitVec.testBit_toNat, Nat.testBit_zero, toNat_multiplier, decide_eq_true_iff]
  omega

/-- Settles O14: below bit 25 the shifted word holds the bit 7 places up, above it holds 0. -/
theorem xsTBits : Obligations.XsTBits := by
  unfold Obligations.XsTBits
  have shifted_low : ∀ (a : Word) n, (a >>> 7).getLsbD n = a.getLsbD (n + 7) := by
    intro a n
    rw [BitVec.getLsbD_ushiftRight, Nat.add_comm]
  refine ⟨fun _ => rfl, fun a n _ => shifted_low a n, fun a n hn _ => getLsbD_shiftRight_seven_of_ge a hn, ?low, ?high,
    by decide, by decide, by decide, by decide⟩
  case low =>
    intro a n _
    rw [getLsbD_xsT, shifted_low]
  case high =>
    intro a n hn _
    rw [getLsbD_xsT, getLsbD_shiftRight_seven_of_ge a hn, Bool.xor_false]

/-- Settles O15: both shifts are products by `shiftLeft_eq_ofNat_mul_mod`, and the grouping is associativity. -/
theorem xsVShiftsDropHighBits : Obligations.XsVShiftsDropHighBits := by
  unfold Obligations.XsVShiftsDropHighBits
  refine ⟨?products, ?grouping, by decide, by decide, by decide, by decide⟩
  case products =>
    intro v t
    have hv : v <<< 6 = BitVec.ofNat 32 (v.toNat * 64 % 2 ^ 32) := shiftLeft_eq_ofNat_mul_mod v 6
    have ht : t <<< 13 = BitVec.ofNat 32 (t.toNat * 8192 % 2 ^ 32) := shiftLeft_eq_ofNat_mul_mod t 13
    rw [xsV, hv, ht]
  case grouping =>
    intro v t
    exact (BitVec.xor_assoc (v ^^^ v <<< 6) t (t <<< 13)).symm

/-- Settles O16: the product's reduction absorbs the multiplier's, and the doubling of `y` drops its bit 31. -/
theorem xsOutOddMultiplier : Obligations.XsOutOddMultiplier := by
  unfold Obligations.XsOutOddMultiplier
  refine ⟨toNat_xsOut, getLsbD_zero_multiplier, ?reduced_once, ?msb, by decide, by decide, by decide, by decide⟩
  case reduced_once =>
    intro y v
    rw [toNat_xsOut, Nat.mod_mul_mod, two_mul]
  case msb =>
    intro y v
    rw [xsOut, xsOut, add_self_xor_msb]

/-- Settles O17: `t` and `v` are `XS_T` and `XS_V` of the window's words. -/
theorem laneStepFourSteps : Obligations.LaneStepFourSteps := by
  unfold Obligations.LaneStepFourSteps
  intro s0 s1 s2 s3 s4
  exact ⟨xsT s0, xsV s4 (xsT s0), rfl, rfl, Prod.ext (laneStep_window _) (laneStep_output _)⟩

end Sys2Proof.Proofs
end

section
/-! `STEP.S` (40_recurrence_scalar.md R109): what writing the scalar window changes, and the command's word, refusal and
effect. -/

namespace Sys2Proof.Proofs

open Sys2Proof.Machine Sys2Proof.Safety Sys2Proof.Claims

/-! The scalar window, read, written, and read by number. -/

theorem scalarWindow_eq_wAt (s : State) : s.scalarWindow = ⟨wAt s 0, wAt s 1, wAt s 2, wAt s 3, wAt s 4⟩ := rfl

@[simp] theorem scalarWindow_writeScalarWindow (s : State) (n : Window) :
    (s.writeScalarWindow n).scalarWindow = n := by
  simp [State.scalarWindow, State.writeScalarWindow, readW_writeW]

theorem readW_writeScalarWindow_of_gt {k : Fin 21} (hk : 4 < k.val) (s : State) (n : Window) :
    (s.writeScalarWindow n).readW k = s.readW k := by
  have outside : ∀ i : Fin 21, i.val ≤ 4 → k ≠ i := by
    rintro i hi rfl
    omega
  simp [State.writeScalarWindow, readW_writeW, outside]

/-! A command word of a row runs the row's command; a state-changing command is refused while a fault is recorded. -/

/-- A word whose opcode is a row's, with `rsv` and the fields the row's format does not use 0, runs the row's command
(30_encoding.md R75 step 6). -/
theorem runCommand_word {m : Mnemonic} {idx : BitVec 8} {data : Word} {s : State} (hidx : m.format = .Z → idx = 0#8)
    (hdata : m.format ≠ .D → data = 0#32) (hunit : m = .stepP → s.hasPhase = true) :
    runCommand (word m.opcode 0#16 idx data) s = exec (m.command idx data) s :=
  runCommand_ok (decode_eq_ok.mpr ⟨m, rsvField_fields .., opField_fields .., by rwa [word, idxField_fields],
    by rwa [word, dataField_fields], hunit, by rw [word, idxField_fields, dataField_fields]⟩)

/-- A word of a command without operands faults when one of its other fields is not 0 (30_encoding.md R75 steps 1, 3
and 4). -/
theorem runCommand_formatZ_faultedTo {m : Mnemonic} (hm : m.format = .Z) {rsv : BitVec 16} {idx : BitVec 8}
    {data : Word} (h : rsv ≠ 0#16 ∨ idx ≠ 0#8 ∨ data ≠ 0#32) (s : State) :
    ∃ t, runCommand (word m.opcode rsv idx data) s = .next t ∧ faultedTo .illegalCmd s t := by
  have nonzero : rsv ≠ 0#16 ∨ (m.format = .Z ∧ (idx ≠ 0#8 ∨ data ≠ 0#32)) := h.imp_right fun h => ⟨hm, h⟩
  obtain ⟨_, hdec⟩ := decode_opcode_error_iff.mpr (nonzero.imp_right .inl)
  exact runCommand_faultedTo hdec

theorem exec_refusedTo {i : Instr} {s : State} (hi : stateChanging i = true) (he : s.err = true) :
    ∃ t, exec i s = .next t ∧ refusedTo s t :=
  ⟨_, exec_refused he (not_executes_of_err he hi), readW_refuse s, readOut_refuse s, refuse_ph s,
    ⟨refuse_err s, refuse_cause s⟩, ⟨refuse_port s, refuse_resets s⟩, refuse_responses s⟩

/-! The effect. -/

/-- `STEP.S` advances the scalar window by one lane step. -/
theorem scalarWindow_effect_stepS (s : State) : (effect .stepS s).scalarWindow = (laneStep s.scalarWindow).1 :=
  scalarWindow_writeScalarWindow s _

/-- `STEP.S` leaves the lane step's output in `OUT[0]`. -/
theorem outAt_zero_effect_stepS (s : State) : outAt (effect .stepS s) 0 = (laneStep s.scalarWindow).2 :=
  readOut_writeOut_same _ 0 _

theorem readW_effect_stepS_of_gt {k : Fin 21} (hk : 4 < k.val) (s : State) :
    (effect .stepS s).readW k = s.readW k :=
  readW_writeScalarWindow_of_gt hk s _

theorem readOut_effect_stepS_of_pos {k : Fin 20} (hk : 0 < k.val) (s : State) :
    (effect .stepS s).readOut k = s.readOut k := by
  have hk0 : k ≠ 0 := Fin.pos_iff_ne_zero.mp hk
  simp [effect, readOut_writeOut, hk0]

/-- `STEP.S` answers what it leaves in `OUT[0]`. -/
theorem effect_stepS_responses (s : State) :
    (effect .stepS s).responses = s.responses ++ [⟨false, outAt (effect .stepS s) 0⟩] := by
  rw [outAt_zero_effect_stepS]
  rfl

/-- Settles O5: with `ERR = 0` the state is `effect .stepS s`, whose scalar window is the lane step of the old one. -/
theorem stepSAdvancesScalarWindow : Obligations.StepSAdvancesScalarWindow := by
  unfold Obligations.StepSAdvancesScalarWindow
  intro s
  refine ⟨runCommand_word (m := .stepS) (fun _ => rfl) (fun _ => rfl) nofun,
    fun _ _ _ h => runCommand_formatZ_faultedTo (m := .stepS) rfl h s, exec_refusedTo rfl, ?executed⟩
  case executed =>
    intro he
    have hwindow := scalarWindow_effect_stepS s
    rw [scalarWindow_eq_wAt, scalarWindow_eq_wAt s, laneStep_window, Window.mk.injEq] at hwindow
    obtain ⟨h0, h1, h2, h3, h4⟩ := hwindow
    exact ⟨effect .stepS s, xsV (wAt s 4) (xsT (wAt s 0)), exec_of_executes he, rfl, h0, h1, h2, h3, h4,
      outAt_zero_effect_stepS s, fun _ hk => readW_effect_stepS_of_gt hk s, fun _ hk => readOut_effect_stepS_of_pos hk s,
      rfl, ⟨rfl, rfl⟩, ⟨rfl, rfl⟩, effect_stepS_responses s⟩

end Sys2Proof.Proofs
end

section
/-! `STEP.R` (41_ring_vector.md R121, R122, R124): its slots as word indices, and the command's word, refusal, fault and
effect. -/

namespace Sys2Proof.Proofs

open Sys2Proof.Machine Sys2Proof.Safety Sys2Proof.Claims

/-! A lane of a slot, and a lane of a slice, read by number. -/

theorem wAt_slot (s : State) (q : Slot) (j : Lane) : wAt s (4 * q.val + j.val) = s.readW (wIndex q j) :=
  wAt_eq_readW s (wIndex q j).isLt

theorem outAt_slice (s : State) (d : Slot) (j : Lane) : outAt s (4 * d.val + j.val) = s.readOut (outIndex d j) :=
  outAt_eq_readOut s (outIndex d j).isLt

theorem outAt_slice_zero (s : State) (j : Lane) : outAt s j.val = s.readOut (outIndex 0 j) := by
  simpa using outAt_slice s 0 j

/-! The bases of each legal counter: from slot `q` they are the slots `q`, `q + 1` and `q + 3`, modulo 5. -/

/-- The counters and bases of R122, as word indices, are those of the five slots. -/
theorem ring_bases_slot {c base0 base1 : Nat}
    (h : (c, base0, base1) ∈ [(0, 4, 12), (4, 8, 16), (8, 12, 0), (12, 16, 4), (16, 0, 8)]) :
    ∃ q : Slot, c = 4 * q.val ∧ base0 = 4 * (q + 1).val ∧ base1 = 4 * (q + 3).val := by
  simp only [List.mem_cons, List.not_mem_nil, or_false, Prod.mk.injEq] at h
  rcases h with h | h | h | h | h
  exacts [⟨0, h⟩, ⟨1, h⟩, ⟨2, h⟩, ⟨3, h⟩, ⟨4, h⟩]

/-- The slots of a ring step make the row of the round whose number is the slot stored to (R122, R127). -/
theorem ring_row_eq_roundTable (q : Slot) :
    (⟨q + 1, q, q + 3, q + 1⟩ : RoundRow) = roundTable (Phase.ofNumber (q + 1)) := by
  obtain ⟨-, e3, -, e5, -⟩ := slot_cycle q
  rw [roundTable_closed, number_ofNumber, e3, e5]

/-- Settles O11: a row is that of a slot `q`, whose bases are `ringBases_slotCounter`, and the closed forms are the
slots' sums modulo 5. -/
theorem ringBasesTable : Obligations.RingBasesTable := by
  unfold Obligations.RingBasesTable
  intro c c1 base0 base1 r hrow
  obtain ⟨hc1, hr, hbases⟩ : c1 = c + 4 ∧ base0 = 4 * r ∧
      (c, base0, base1) ∈ [(0, 4, 12), (4, 8, 16), (8, 12, 0), (12, 16, 4), (16, 0, 8)] := by
    simp only [List.mem_cons, List.not_mem_nil, or_false, Prod.mk.injEq] at hrow
    rcases hrow with ⟨rfl, rfl, rfl, rfl, rfl⟩ | ⟨rfl, rfl, rfl, rfl, rfl⟩ | ⟨rfl, rfl, rfl, rfl, rfl⟩ |
      ⟨rfl, rfl, rfl, rfl, rfl⟩ | ⟨rfl, rfl, rfl, rfl, rfl⟩ <;> decide
  obtain ⟨q, rfl, rfl, rfl⟩ := ring_bases_slot hbases
  obtain rfl : r = (q + 1).val := by omega
  have hbase0 : (q + 1).val = (q.val + 1) % 5 := Fin.val_add q 1
  have hbase1 : (q + 3).val = (q.val + 3) % 5 := Fin.val_add q 3
  refine ⟨hc1, by omega, by omega, by omega, by omega, ⟨q + 1, q + 3, q⟩, ringBases_slotCounter q,
    rfl, rfl, rfl, ?_⟩
  rw [Fin.ofNat_val_eq_self, ring_row_eq_roundTable]

/-! A counter that is not legal. -/

theorem counterLegal_iff_mem (c : Word) : counterLegal c ↔ c ∈ [0#32, 4#32, 8#32, 12#32, 16#32] := by
  simp [counterLegal]

theorem faultedTo_raise (f : CmdFault) (s : State) : faultedTo f s (raise f s) :=
  ⟨raise_err s f, fun he => by simp [he], fun he => by simp [he], readW_raise s f, readOut_raise s f, raise_ph s f,
    ⟨raise_port s f, raise_resets s f⟩, raise_responses s f⟩

/-- `STEP.R` checks the whole counter word and takes `BAD_ROT` (R124). -/
theorem exec_stepR_of_not_counterLegal {s : State} (he : s.err = false) (hc : ¬ counterLegal (s.readW rotIndex)) :
    exec .stepR s = .next (raise .badRot s) := by
  simp [exec, execStepR, he, ringBases_eq_none hc]

/-! The effect from a legal counter. The counter is written before the slots are read, and no slot holds it. -/

@[simp] theorem readW_slot_writeW_rot (s : State) (v : Word) (q : Slot) (j : Lane) :
    (s.writeW rotIndex v).readW (wIndex q j) = s.readW (wIndex q j) :=
  readW_writeW_other (wIndex_ne_rot q j) v

theorem stepWord_writeW_rot (s : State) (v : Word) (row : RoundRow) (j : Lane) :
    stepWord (s.writeW rotIndex v) row j = stepWord s row j := by
  rw [stepWord, readW_slot_writeW_rot, readW_slot_writeW_rot, stepWord]

@[simp] theorem effect_stepR_ph (s : State) : (effect .stepR s).ph = s.ph := by
  simp only [effect]
  split <;> rfl

section
variable {s : State} {q : Slot} (hq : s.readW rotIndex = slotCounter q)
include hq

theorem effect_stepR_row :
    effect .stepR s =
      (vectorStep (s.writeW rotIndex (slotCounter (q + 1))) ⟨q + 1, q, q + 3, q + 1⟩ 0).respond false 0#32 := by
  obtain ⟨-, e3, -, e5, -⟩ := slot_cycle q
  rw [effect_stepR hq, e3, e5]

theorem readW_effect_stepR_rot : (effect .stepR s).readW rotIndex = slotCounter (q + 1) := by
  rw [effect_stepR_row hq, readW_respond, readW_vectorStep_rot, readW_writeW_same]

/-- What a ring step stores: slot `q` holds `s4`, slot `q + 1` the oldest word, which the new one replaces. -/
theorem wAt_effect_stepR_slot (j : Lane) :
    wAt (effect .stepR s) (4 * (q + 1).val + j.val) =
      xsV (wAt s (4 * q.val + j.val)) (xsT (wAt s (4 * (q + 1).val + j.val))) := by
  simp only [wAt_slot]
  rw [effect_stepR_row hq, readW_respond, readW_vectorStep, if_pos rfl, stepWord_writeW_rot, stepWord]

theorem readW_effect_stepR_other {q' : Slot} (hne : q' ≠ q + 1) (j : Lane) :
    (effect .stepR s).readW (wIndex q' j) = s.readW (wIndex q' j) := by
  rw [effect_stepR_row hq, readW_respond, readW_vectorStep, if_neg hne, readW_slot_writeW_rot]

/-- What a ring step puts out: slot `q + 3` holds `s1`. -/
theorem outAt_effect_stepR (j : Lane) :
    outAt (effect .stepR s) j.val =
      xsOut (wAt s (4 * (q + 3).val + j.val)) (wAt (effect .stepR s) (4 * (q + 1).val + j.val)) := by
  rw [wAt_effect_stepR_slot hq]
  simp only [outAt_slice_zero, wAt_slot]
  rw [effect_stepR_row hq, readOut_respond, readOut_vectorStep, if_pos rfl, readW_slot_writeW_rot, stepWord_writeW_rot,
    stepWord]

theorem readOut_effect_stepR_other {d : Slot} (hd : d ≠ 0) (j : Lane) :
    (effect .stepR s).readOut (outIndex d j) = s.readOut (outIndex d j) := by
  rw [effect_stepR_row hq, readOut_respond, readOut_vectorStep, if_neg hd, readOut_writeW]

/-- The frame in `W` by word index: outside the slot stored to, and beside the counter. -/
theorem readW_effect_stepR_outside {k : Fin 21} (hk : k.val < 4 * (q + 1).val ∨ 4 * (q + 1).val + 4 ≤ k.val)
    (hrot : k.val ≠ 20) : (effect .stepR s).readW k = s.readW k := by
  rcases wIndex_cases k with rfl | ⟨q', j, rfl⟩
  · exact absurd rfl hrot
  · refine readW_effect_stepR_other hq ?_ j
    rintro rfl
    rw [wIndex_val] at hk
    omega

/-- The frame in `OUT` by word index: beside slice 0. -/
theorem readOut_effect_stepR_of_ge {k : Fin 20} (hk : 4 ≤ k.val) : (effect .stepR s).readOut k = s.readOut k := by
  obtain ⟨d, j, rfl⟩ := outIndex_cases k
  refine readOut_effect_stepR_other hq ?_ j
  rintro rfl
  simp only [outIndex_val, Fin.val_zero] at hk
  omega

end

/-- Settles O6: with `ERR = 0` and counter `4q` the state is `effect .stepR s`, read lane by lane at the slots `q`,
`q + 1` and `q + 3`. -/
theorem stepRAdvancesRing : Obligations.StepRAdvancesRing := by
  unfold Obligations.StepRAdvancesRing
  intro s
  refine ⟨runCommand_word (m := .stepR) (fun _ => rfl) (fun _ => rfl) nofun,
    fun _ _ _ h => runCommand_formatZ_faultedTo (m := .stepR) rfl h s, exec_refusedTo rfl, ?badRot, ?executed⟩
  case badRot =>
    intro he hc
    exact ⟨_, exec_stepR_of_not_counterLegal he (mt (counterLegal_iff_mem _).mp hc), faultedTo_raise .badRot s⟩
  case executed =>
    intro he c base0 base1 hrow hc
    obtain ⟨q, rfl, rfl, rfl⟩ := ring_bases_slot hrow
    have hq : s.readW rotIndex = slotCounter q := hc
    have hex : executes .stepR s := ⟨he, (counterLegal_iff _).mpr ⟨q, hq⟩⟩
    obtain ⟨herr, hcause, hport, hresets, -⟩ := effect_frame .stepR s
    refine ⟨effect .stepR s, exec_of_executes hex, ?lanes, readW_effect_stepR_rot hq,
      fun _ hk hrot => readW_effect_stepR_outside hq hk hrot, fun _ hk => readOut_effect_stepR_of_ge hq hk,
      effect_stepR_ph s, ⟨herr, hcause⟩, ⟨hport, hresets⟩, effect_responses hex⟩
    intro j hj
    exact ⟨_, _, rfl, wAt_effect_stepR_slot hq ⟨j, hj⟩, rfl, outAt_effect_stepR hq ⟨j, hj⟩⟩

end Sys2Proof.Proofs
end

section
/-! `ROUND` (42_unrolled_vector.md R140, R141) by word index, and `STEP.U` (R146): the command's word, refusal and
effect, which the data words alone decide. -/

namespace Sys2Proof.Proofs

open Sys2Proof.Machine Sys2Proof.Safety Sys2Proof.Claims

/-! A round, read by number. -/

/-- The word offsets of R141 are the base indices of the round table's slots. -/
theorem round_offsets_slots {k : Phase} {tOff s4Off s1Off stOff : Nat}
    (h : (k.number.val, tOff, s4Off, s1Off, stOff) ∈
      [(0, 0, 16, 8, 0), (1, 4, 0, 12, 4), (2, 8, 4, 16, 8), (3, 12, 8, 0, 12), (4, 16, 12, 4, 16)]) :
    tOff = 4 * (roundTable k).tOff.val ∧ s4Off = 4 * (roundTable k).s4Off.val ∧
      s1Off = 4 * (roundTable k).s1Off.val ∧ stOff = 4 * (roundTable k).stOff.val := by
  cases k <;> simpa [Phase.number, roundTable] using h

section
variable (s : State) (k : Phase) (d : Slot)

/-- What a round stores, from the words it found. -/
theorem wAt_round_slot (j : Lane) :
    wAt (roundOp k d s) (4 * (roundTable k).stOff.val + j.val) =
      xsV (wAt s (4 * (roundTable k).s4Off.val + j.val)) (xsT (wAt s (4 * (roundTable k).tOff.val + j.val))) := by
  simp only [wAt_slot]
  rw [roundOp, readW_vectorStep, if_pos rfl, stepWord]

/-- What a round puts out, from the word it found and the one it stores. -/
theorem outAt_round_slice (j : Lane) :
    outAt (roundOp k d s) (4 * d.val + j.val) =
      xsOut (wAt s (4 * (roundTable k).s1Off.val + j.val))
        (wAt (roundOp k d s) (4 * (roundTable k).stOff.val + j.val)) := by
  rw [wAt_round_slot]
  simp only [outAt_slice, wAt_slot]
  rw [roundOp, readOut_vectorStep, if_pos rfl, stepWord]

/-- The frame in `W` by word index, the counter included. -/
theorem readW_round_outside {i : Fin 21}
    (hi : i.val < 4 * (roundTable k).stOff.val ∨ 4 * (roundTable k).stOff.val + 4 ≤ i.val) :
    (roundOp k d s).readW i = s.readW i := by
  rcases wIndex_cases i with rfl | ⟨q, j, rfl⟩
  · exact readW_round_rot s k d
  · have hq : q ≠ (roundTable k).stOff := by
      rintro rfl
      rw [wIndex_val] at hi
      omega
    rw [roundOp, readW_vectorStep, if_neg hq]

/-- The frame in `OUT` by word index. -/
theorem readOut_round_outside {i : Fin 20} (hi : i.val < 4 * d.val ∨ 4 * d.val + 4 ≤ i.val) :
    (roundOp k d s).readOut i = s.readOut i := by
  obtain ⟨d', j, rfl⟩ := outIndex_cases i
  refine readOut_round_other s k ?_ j
  rintro rfl
  rw [outIndex_val] at hi
  omega

end

/-- Settles O8: the offsets are those of the round table's slots, and a round is read there lane by lane. -/
theorem roundLaneByLane : Obligations.RoundLaneByLane := by
  unfold Obligations.RoundLaneByLane
  intro s k d tOff s4Off s1Off stOff hrow
  obtain ⟨rfl, rfl, rfl, rfl⟩ := round_offsets_slots hrow
  refine ⟨?lanes, fun _ hi => readW_round_outside s k d hi, fun _ hi => readOut_round_outside s k d hi, round_ph s k d,
    ⟨round_err s k d, round_cause s k d⟩, ⟨round_port s k d, round_resets s k d⟩, round_responses s k d⟩
  case lanes =>
    intro j hj
    exact ⟨_, _, rfl, wAt_round_slot s k d ⟨j, hj⟩, rfl, outAt_round_slice s k d ⟨j, hj⟩⟩

/-! The five rounds are lane steps of the windows, and the windows are the data words. -/

theorem ne_rotIndex_iff_lt {k : Fin 21} : k ≠ rotIndex ↔ k.val < 20 := by
  rw [Ne, Fin.ext_iff, show rotIndex.val = 20 from rfl]
  omega

section
variable {s s' : State} (h : ∀ k, k ≠ rotIndex → s'.readW k = s.readW k)
include h

theorem window_eq_of_data (q : Slot) (j : Lane) : s'.window q j = s.window q j :=
  window_congr (fun q j => h (wIndex q j) (wIndex_ne_rot q j)) q j

/-- The data words after five rounds come from the data words before. -/
theorem readW_fiveRounds_of_data : ∀ k, k ≠ rotIndex → (fiveRounds s').readW k = (fiveRounds s).readW k := by
  refine readW_of_windows (q := 0) fun j => ?_
  rw [(fiveRounds_lanes s' j).1, (fiveRounds_lanes s j).1, window_eq_of_data h]

/-- So do all outputs, whatever `OUT` held. -/
theorem readOut_fiveRounds_of_data (k : Fin 20) : (fiveRounds s').readOut k = (fiveRounds s).readOut k := by
  obtain ⟨d, j, rfl⟩ := outIndex_cases k
  rw [(fiveRounds_lanes s' j).2, (fiveRounds_lanes s j).2, window_eq_of_data h]

end

/-! The command. -/

theorem exec_stepU {s : State} (he : s.err = false) :
    exec .stepU s = .next ((fiveRounds s).respond false 0#32) :=
  exec_of_executes (i := .stepU) he

theorem wAt_rot (s : State) : wAt s 20 = s.readW rotIndex := wAt_eq_readW s rotIndex.isLt

/-- Beside the data words and `OUT`, the rounds and the response change nothing but the responses. Field by field by
rewriting, so that the rounds are never unfolded to compare two fields. -/
theorem respond_fiveRounds_frame (s : State) (d : Word) :
    wAt ((fiveRounds s).respond false d) 20 = wAt s 20 ∧ ((fiveRounds s).respond false d).ph = s.ph ∧
      sameFlags s ((fiveRounds s).respond false d) ∧ samePort s ((fiveRounds s).respond false d) ∧
      answered s ((fiveRounds s).respond false d) false d := by
  refine ⟨?counter, ?cursor, ⟨?err, ?cause⟩, ⟨?port, ?resets⟩, ?answer⟩
  case counter => rw [wAt_rot, wAt_rot, readW_respond, readW_fiveRounds_rot]
  case cursor => rw [respond_ph, fiveRounds_ph]
  case err => rw [respond_err, fiveRounds_err]
  case cause => rw [respond_cause, fiveRounds_cause]
  case port => rw [respond_port, fiveRounds_port]
  case resets => rw [respond_resets, fiveRounds_resets]
  case answer => rw [answered, respond_responses, fiveRounds_responses]

/-- Settles O7: with `ERR = 0` the state is the five rounds with the response, and by `fiveRounds_lanes` the windows
alone decide what the rounds leave. -/
theorem stepURunsFiveRoundsInOrder : Obligations.StepURunsFiveRoundsInOrder := by
  unfold Obligations.StepURunsFiveRoundsInOrder
  intro s
  refine ⟨runCommand_word (m := .stepU) (fun _ => rfl) (fun _ => rfl) nofun,
    fun _ _ _ h => runCommand_formatZ_faultedTo (m := .stepU) rfl h s, exec_refusedTo rfl, ?executed⟩
  case executed =>
    intro he
    obtain ⟨hcounter, hph, hflags, hport, hanswer⟩ := respond_fiveRounds_frame s 0#32
    refine ⟨_, _, _, _, _, fiveRounds s, exec_stepU he, rfl, rfl, rfl, rfl, rfl, readW_respond _ _ _,
      readOut_respond _ _ _, hcounter, hph, hflags, hport, hanswer, ?sameData⟩
    case sameData =>
      intro s' he' hdata
      have hdata' : ∀ k, k ≠ rotIndex → s'.readW k = s.readW k := fun k hk => hdata k (ne_rotIndex_iff_lt.mp hk)
      refine ⟨_, exec_stepU he', fun k hk => ?_, fun k => ?_⟩
      · rw [readW_respond, readW_respond]
        exact readW_fiveRounds_of_data hdata' k (ne_rotIndex_iff_lt.mpr hk)
      · rw [readOut_respond, readOut_respond]
        exact readOut_fiveRounds_of_data hdata' k

end Sys2Proof.Proofs
end

section
/-! The dispatch cursor (43_phase_dispatch.md R168): what each command does to `PH`, counted over a sequence, and `PH` as
the host reads it. -/

namespace Sys2Proof.Proofs

open Sys2Proof.Machine Sys2Proof.Safety Sys2Proof.Claims

/-! One command. -/

theorem effect_ph_of_not_stepP {i : Instr} (hi : isStepP i = false) (s : State) : (effect i s).ph = s.ph := by
  cases i with
  | wrs | rds | rdo => simp only [effect]; split <;> rfl
  | rdst | stepS | stepU => simp [effect]
  | stepR => exact effect_stepR_ph s
  | stepP d => cases hi

theorem effect_stepP_ph {d : BitVec 8} {s : State} {k : Phase} (hd : d.toNat ≤ 4) (hk : s.ph = some k) :
    (effect (.stepP d) s).ph = some k.next := by
  simp [effect, hk, sliceOperand_of_le hd, runPhase_eq]

theorem val_number_next (k : Phase) : k.next.number.val = (k.number.val + 1) % 5 := by
  rw [number_next]
  exact Fin.val_add k.number 1

/-- The command is a `STEP.P` that is executed: what R168 counts. -/
def advancesCursor (i : Instr) (s : State) : Bool := isStepP i && completes i s

theorem not_advancesCursor_of_not_executes {i : Instr} {s : State} (h : ¬ executes i s) : advancesCursor i s = false := by
  simp [advancesCursor, mt completes_iff.mp h]

/-- A command that is executed advances the cursor by one modulo 5 if it is a `STEP.P`, and else leaves it. -/
theorem effect_ph_number {i : Instr} {s : State} {k : Phase} (h : executes i s) (hk : s.ph = some k) :
    ∃ k', (effect i s).ph = some k' ∧
      k'.number.val = (k.number.val + if advancesCursor i s then 1 else 0) % 5 := by
  have hadv : advancesCursor i s = isStepP i := by rw [advancesCursor, completes_iff.mpr h, Bool.and_true]
  rw [hadv]
  cases hi : isStepP i with
  | false => exact ⟨k, (effect_ph_of_not_stepP hi s).trans hk, (Nat.mod_eq_of_lt k.number.isLt).symm⟩
  | true =>
    cases i with
    | stepP d =>
      obtain ⟨-, -, hd⟩ := h
      exact ⟨k.next, effect_stepP_ph hd hk, val_number_next k⟩
    | wrs | rds | rdo | rdst | stepS | stepR | stepU => cases hi

/-- Any command answers a next state; it moves the cursor by what it counts for. -/
theorem exec_ph_number (i : Instr) {s : State} {k : Phase} (hk : s.ph = some k) :
    ∃ t k', exec i s = .next t ∧ t.ph = some k' ∧
      k'.number.val = (k.number.val + if advancesCursor i s then 1 else 0) % 5 := by
  have kept (h : ¬ executes i s) : k.number.val = (k.number.val + if advancesCursor i s then 1 else 0) % 5 := by
    rw [not_advancesCursor_of_not_executes h]
    exact (Nat.mod_eq_of_lt k.number.isLt).symm
  rcases exec_cases i s with ⟨hex, hrun⟩ | ⟨hno, -, hrun⟩ | ⟨hno, f, hrun⟩
  · obtain ⟨k', hk', hnum⟩ := effect_ph_number hex hk
    exact ⟨_, k', hrun, hk', hnum⟩
  · exact ⟨_, k, hrun, hk, kept hno⟩
  · exact ⟨_, k, hrun, (raise_ph s f).trans hk, kept hno⟩

/-- The last response has error bit 0 exactly where the command is executed (30_encoding.md R82). -/
theorem exec_errorBit_clear {i : Instr} {s t : State} (h : exec i s = .next t) :
    (t.responses.getLast?.map Response.e == some false) = completes i s := by
  have failed (hno : ¬ executes i s) : completes i s = false := by simpa using mt completes_iff.mp hno
  rcases exec_cases i s with ⟨hex, hrun⟩ | ⟨hno, -, hrun⟩ | ⟨hno, f, hrun⟩ <;>
    obtain rfl := Host.Outcome.next.inj (hrun.symm.trans h)
  · simp [effect_responses hex, completes_iff.mpr hex]
  · simp [failed hno]
  · simp [failed hno]

/-! A sequence of commands. -/

theorem completedPhases_cons {i : Instr} {is : List Instr} {s t : State} (h : exec i s = .next t) :
    completedPhases (i :: is) s = (if advancesCursor i s then 1 else 0) + completedPhases is t := by
  rw [completedPhases, h, advancesCursor, ← exec_errorBit_clear h]

/-- After any sequence the cursor has advanced by the number of completed `STEP.P`, modulo 5. -/
theorem execAll_cursor (cs : List Instr) {s : State} {k : Phase} (hk : s.ph = some k) :
    ∃ t k', execAll cs s = .next t ∧ t.ph = some k' ∧
      k'.number.val = (k.number.val + completedPhases cs s) % 5 := by
  induction cs generalizing s k with
  | nil => exact ⟨s, k, rfl, hk, (Nat.mod_eq_of_lt k.number.isLt).symm⟩
  | cons i is ih =>
    obtain ⟨t, k', hrun, hk', hnum⟩ := exec_ph_number i hk
    obtain ⟨u, k'', hrest, hk'', hnum'⟩ := ih hk'
    refine ⟨u, k'', (execAll_cons hrun).trans hrest, hk'', ?_⟩
    rw [hnum', hnum, completedPhases_cons hrun, Nat.mod_add_mod, Nat.add_assoc]

/-! The cursor as the host reads it. -/

/-- `PH` is bits 6:4 of the status word (10_state.md R35). -/
theorem statusWord_extract_phCode (s : State) : (statusWord s).extractLsb' 4 3 = phCode s.ph := by
  apply BitVec.eq_of_getLsbD_eq
  intro i hi
  simp only [statusWord, BitVec.getLsbD_extractLsb', BitVec.getLsbD_setWidth, BitVec.getLsbD_append]
  interval_cases i <;> simp

/-- Settles O52: by induction over the sequence, each command moving the cursor by what it counts for. -/
theorem cursorCountsCompletedPhases : Obligations.CursorCountsCompletedPhases := by
  unfold Obligations.CursorCountsCompletedPhases
  refine ⟨?afterReset, ?counted⟩
  case afterReset =>
    intro s rest hunit hport
    obtain ⟨k, hk⟩ := Option.isSome_iff_exists.mp hunit
    exact ⟨_, step_reset hport, (assertReset_ph _).trans (by simp [hk])⟩
  case counted =>
    intro cs s k hk
    obtain ⟨t, k', hrun, hk', hnum⟩ := execAll_cursor cs hk
    exact ⟨t, k', _, statusWord t, hrun, hk', hnum, rfl, rfl, by rw [statusWord_extract_phCode, hk', phCode]⟩

end Sys2Proof.Proofs
end

section
/-! `STEP.P` (43_phase_dispatch.md R161 to R166): the command's word, refusal, fault and effect, phase by phase. -/

namespace Sys2Proof.Proofs

open Sys2Proof.Machine Sys2Proof.Safety Sys2Proof.Claims

/-! The command's word, and a slice out of range. -/

/-- A word of `STEP.P` faults when `rsv` or `data` is not 0, or on a block without the phase unit (30_encoding.md R75
steps 1, 4 and 5). -/
theorem runCommand_stepP_faultedTo {rsv : BitVec 16} {data : Word} {s : State}
    (h : rsv ≠ 0#16 ∨ data ≠ 0#32 ∨ s.hasPhase = false) (d : BitVec 8) :
    ∃ t, runCommand (word 0x13#8 rsv d data) s = .next t ∧ faultedTo .illegalCmd s t := by
  have illegal : ∃ e, decode s.hasPhase (word Mnemonic.stepP.opcode rsv d data) = .error e := by
    refine decode_opcode_error_iff.mpr (h.imp_right fun h => .inr (h.imp ?_ ?_))
    · exact fun hdata => ⟨rfl, hdata⟩
    · exact fun hunit => ⟨rfl, hunit⟩
  obtain ⟨_, hdec⟩ := illegal
  exact runCommand_faultedTo hdec

theorem exec_stepP_of_gt {d : BitVec 8} {s : State} {k : Phase} (he : s.err = false) (hk : s.ph = some k)
    (hd : 4 < d.toNat) : exec (.stepP d) s = .next (raise .badIndex s) := by
  simp [exec, execStepP, hk, he, sliceOperand_of_gt hd]

/-- A slice operand in range is a slice's number. -/
theorem eq_ofNat_slice {d : BitVec 8} (hd : d.toNat ≤ 4) : ∃ q : Slot, d = BitVec.ofNat 8 q.val ∧ d.toNat = q.val :=
  ⟨⟨d.toNat, Nat.lt_succ_of_le hd⟩, by simp, rfl⟩

/-! The offsets of R161 to R165. -/

/-- Each phase has its round's offsets, stores where it loads its oldest words, and passes to the next phase. -/
theorem phase_offsets_round {k k' : Phase} {tOff s4Off s1Off : Nat}
    (h : (k, tOff, s4Off, s1Off, k') ∈
      [(Phase.phase0, 0, 16, 8, Phase.phase1), (Phase.phase1, 4, 0, 12, Phase.phase2),
       (Phase.phase2, 8, 4, 16, Phase.phase3), (Phase.phase3, 12, 8, 0, Phase.phase4),
       (Phase.phase4, 16, 12, 4, Phase.phase0)]) :
    k' = k.next ∧ (k.number.val, tOff, s4Off, s1Off, tOff) ∈
      [(0, 0, 16, 8, 0), (1, 4, 0, 12, 4), (2, 8, 4, 16, 8), (3, 12, 8, 0, 12), (4, 16, 12, 4, 16)] := by
  simp only [List.mem_cons, List.not_mem_nil, or_false, Prod.mk.injEq] at h
  rcases h with ⟨rfl, rfl, rfl, rfl, rfl⟩ | ⟨rfl, rfl, rfl, rfl, rfl⟩ | ⟨rfl, rfl, rfl, rfl, rfl⟩ |
    ⟨rfl, rfl, rfl, rfl, rfl⟩ | ⟨rfl, rfl, rfl, rfl, rfl⟩ <;> decide

/-- Settles O12: with `ERR = 0` the state is the designated round (`roundLaneByLane`) with the next cursor and the
response. -/
theorem stepPRunsDesignatedPhase : Obligations.StepPRunsDesignatedPhase := by
  unfold Obligations.StepPRunsDesignatedPhase
  intro s d
  refine ⟨fun _ _ h => runCommand_stepP_faultedTo h d, fun k hk => ⟨?runs, exec_refusedTo rfl, ?badIndex, ?executed⟩⟩
  case runs =>
    exact runCommand_word (m := .stepP) nofun (fun _ => rfl) fun _ => by simp [hk]
  case badIndex =>
    intro he hd
    exact ⟨_, exec_stepP_of_gt he hk hd, faultedTo_raise .badIndex s⟩
  case executed =>
    intro he hd tOff s4Off s1Off k' hrow
    obtain ⟨q, rfl, hq⟩ := eq_ofNat_slice hd
    obtain ⟨rfl, hoffsets⟩ := phase_offsets_round hrow
    obtain ⟨hlanes, hw, hout, -, hflags, hport, hresp⟩ := roundLaneByLane s k q tOff s4Off s1Off tOff hoffsets
    rw [hq]
    exact ⟨_, exec_stepP he hk q, hlanes, rfl, hw, hout, hflags, hport, by
      rw [answered, respond_responses, setPh_responses, hresp]⟩

end Sys2Proof.Proofs
end

section
/-! `STEP.P` in a sequence (43_phase_dispatch.md R169): the rounds it runs, on the data words alone, with reads and writes
of `W[20]` between them. -/

namespace Sys2Proof.Proofs

open Sys2Proof.Machine Sys2Proof.Safety Sys2Proof.Claims

/-! States with the same data words and outputs; the counter, the cursor and the responses may differ. -/

/-- The states agree on `W[0..19]` and on `OUT`. -/
structure SameData (s t : State) : Prop where
  words : ∀ k, k ≠ rotIndex → t.readW k = s.readW k
  outputs : sameOut s t

theorem SameData.refl (s : State) : SameData s s := ⟨fun _ _ => rfl, fun _ => rfl⟩

theorem SameData.trans {s t u : State} (hst : SameData s t) (htu : SameData t u) : SameData s u :=
  ⟨fun k hk => (htu.words k hk).trans (hst.words k hk), fun k => (htu.outputs k).trans (hst.outputs k)⟩

/-- A round reads the data words and keeps the rest, so it leaves the same data in both states. -/
theorem SameData.round {s t : State} (h : SameData s t) (k : Phase) (d : Slot) :
    SameData (roundOp k d s) (roundOp k d t) := by
  obtain ⟨hw, hout⟩ := h
  have hdata (q : Slot) (j : Lane) : t.readW (wIndex q j) = s.readW (wIndex q j) := hw _ (wIndex_ne_rot q j)
  refine ⟨fun i hi => ?_, fun i => ?_⟩
  · rcases wIndex_cases i with rfl | ⟨q, j, rfl⟩
    · exact absurd rfl hi
    · simp only [roundOp, readW_vectorStep, stepWord, hdata]
  · obtain ⟨q, j, rfl⟩ := outIndex_cases i
    simp only [roundOp, readOut_vectorStep, stepWord, hdata, hout _]

theorem SameData.setPh_respond {s t : State} (h : SameData s t) (k : Phase) (e : Bool) (d : Word) :
    SameData s ((t.setPh k).respond e d) := ⟨h.words, h.outputs⟩

/-! The commands that may stand between the phases. -/

theorem SameData.effect_read {i : Instr} {s : State} (hread : stateChanging i = false) (h : executes i s) :
    SameData s (effect i s) := by
  rw [effect_of_read hread h]
  exact ⟨fun _ _ => rfl, fun _ => rfl⟩

/-- With `ERR = 0` such a command completes and leaves the data, `ERR` and the cursor. -/
theorem exec_harmless {i : Instr} {s : State} (hi : harmlessBetweenPhases i) (he : s.err = false) :
    ∃ t, exec i s = .next t ∧ t.err = false ∧ t.ph = s.ph ∧ SameData s t := by
  have executed : executes i s ∧ isStepP i = false ∧ SameData s (effect i s) := by
    cases i with
    | wrs idx data =>
      obtain rfl : idx = 20#8 := hi
      exact ⟨⟨he, by decide⟩, rfl, ⟨fun _ hk => readW_writeW_other hk data, fun _ => rfl⟩⟩
    | rds | rdo | rdst => exact ⟨hi, rfl, SameData.effect_read rfl hi⟩
    | stepS | stepR | stepU | stepP => cases hi
  obtain ⟨hex, hP, hdata⟩ := executed
  obtain ⟨herr, -⟩ := effect_frame i s
  exact ⟨_, exec_of_executes hex, herr.trans he, effect_ph_of_not_stepP hP s, hdata⟩

/-! The rounds of a sequence of phases. -/

/-- The rounds that consecutive `STEP.P` run from the cursor `k`, their outputs to the slices `ds`. -/
def phaseRounds : List Slot → Phase → State → State
  | [], _, s => s
  | d :: ds, k, s => phaseRounds ds k.next (roundOp k d s)

theorem phaseRounds_five (s : State) : phaseRounds [0, 1, 2, 3, 4] .phase0 s = fiveRounds s := rfl

/-- `STEP.P` to the slice `d`. -/
def stepPTo (d : Slot) : Instr := .stepP (BitVec.ofNat 8 d.val)

/-- A sequence whose `STEP.P` go to the slices `ds`, with harmless commands between, leaves what their rounds leave
of the data, and the cursor advanced by their number. -/
theorem execAll_phases {cs : List Instr} {ds : List Slot} {r s : State} {k : Phase} (he : s.err = false)
    (hk : s.ph = some k) (hcs : ∀ i ∈ cs, isStepP i = true ∨ harmlessBetweenPhases i)
    (hds : cs.filter isStepP = ds.map stepPTo) (hrs : SameData r s) :
    ∃ t, execAll cs s = .next t ∧ t.err = false ∧ t.ph = some (Phase.next^[ds.length] k) ∧
      SameData (phaseRounds ds k r) t := by
  induction cs generalizing ds r s k with
  | nil =>
    obtain rfl : ds = [] := List.map_eq_nil_iff.mp hds.symm
    exact ⟨s, rfl, he, hk, hrs⟩
  | cons i is ih =>
    obtain ⟨hi, his⟩ := List.forall_mem_cons.mp hcs
    cases hP : isStepP i with
    | true =>
      rw [List.filter_cons_of_pos hP] at hds
      obtain ⟨d, ds', rfl, rfl, hds'⟩ := List.map_eq_cons_iff.mp hds.symm
      have hrun : exec (stepPTo d) s = .next (((roundOp k d s).setPh k.next).respond false 0#32) := exec_stepP he hk d
      rw [execAll_cons hrun]
      exact ih (ds := ds') (k := k.next) he rfl his hds'.symm ((hrs.round k d).setPh_respond k.next false 0#32)
    | false =>
      rw [List.filter_cons_of_neg (by simp [hP])] at hds
      have hharmless : harmlessBetweenPhases i := hi.resolve_left (by simp [hP])
      obtain ⟨t, hrun, het, hkt, hdata⟩ := exec_harmless hharmless he
      rw [execAll_cons hrun]
      exact ih het (hkt.trans hk) his hds (hrs.trans hdata)

/-- Settles O22: the rounds of the five phases are the five rounds of `STEP.U`, and five advances return the cursor to
0. -/
theorem readsBetweenPhasesDoNotDisturb : Obligations.ReadsBetweenPhasesDoNotDisturb := by
  unfold Obligations.ReadsBetweenPhasesDoNotDisturb
  intro s cs he hk hcs hfive
  have hds : cs.filter isStepP = [0, 1, 2, 3, 4].map stepPTo := hfive
  obtain ⟨t, hrun, -, hph, hdata⟩ := execAll_phases he hk hcs hds (SameData.refl s)
  obtain ⟨hw, hout⟩ := phaseRounds_five s ▸ hdata
  refine ⟨t, _, hrun, exec_stepU he, ?data, ?outputs, hph⟩
  case data => simpa only [readW_respond] using hw
  case outputs => simpa only [sameOut, readOut_respond] using hout

end Sys2Proof.Proofs
end

section
/-! The host access commands (44_host_access.md R180 to R183): their words, their faults, and what they write and
answer. -/

namespace Sys2Proof.Proofs

open Sys2Proof.Machine Sys2Proof.Safety Sys2Proof.Claims

/-! The commands' words. -/

/-- A word of a row faults when `rsv` is not 0, or when the row has an index but no data word and `data` is not 0
(30_encoding.md R75 steps 1 and 4). -/
theorem runCommand_row_faultedTo {m : Mnemonic} {rsv : BitVec 16} {data : Word}
    (h : rsv ≠ 0#16 ∨ (m.format = .I ∧ data ≠ 0#32)) (idx : BitVec 8) (s : State) :
    ∃ t, runCommand (word m.opcode rsv idx data) s = .next t ∧ faultedTo .illegalCmd s t := by
  obtain ⟨_, hdec⟩ := decode_opcode_error_iff.mpr (h.imp_right fun hdata => .inr (.inl hdata))
  exact runCommand_faultedTo hdec

/-! An index out of range. -/

theorem exec_wrs_of_gt {s : State} {idx : BitVec 8} (he : s.err = false) (hi : 20 < idx.toNat) (data : Word) :
    exec (.wrs idx data) s = .next (raise .badIndex s) := by
  simp [exec, execWrs, he, wOperand_of_gt hi]

/-- The check of the index comes first: it does not matter whether a fault is recorded. -/
theorem exec_rds_of_gt {idx : BitVec 8} (hi : 20 < idx.toNat) (s : State) :
    exec (.rds idx) s = .next (raise .badIndex s) := by
  simp [exec, execRds, wOperand_of_gt hi]

theorem exec_rdo_of_gt {idx : BitVec 8} (hi : 19 < idx.toNat) (s : State) :
    exec (.rdo idx) s = .next (raise .badIndex s) := by
  simp [exec, execRdo, outOperand_of_gt hi]

/-! A read that is executed. -/

theorem exec_read {i : Instr} {s : State} (hread : stateChanging i = false) (h : executes i s) :
    exec i s = .next (s.respond false (answerData i s)) := by
  rw [exec_of_executes h, effect_of_read hread h]

/-- A response by itself changes nothing but the responses. -/
theorem respond_frame (s : State) (e : Bool) (d : Word) :
    sameW s (s.respond e d) ∧ sameOut s (s.respond e d) ∧ (s.respond e d).ph = s.ph ∧ sameFlags s (s.respond e d) ∧
      samePort s (s.respond e d) ∧ answered s (s.respond e d) e d :=
  ⟨readW_respond s e d, readOut_respond s e d, respond_ph .., ⟨respond_err .., respond_cause ..⟩,
    ⟨respond_port .., respond_resets ..⟩, respond_responses ..⟩

/-- Settles O1: the bounds give `raise` or one `writeW`, and what a write leaves is `readW_writeW_other`. -/
theorem wrsWritesOneWord : Obligations.WrsWritesOneWord := by
  unfold Obligations.WrsWritesOneWord
  intro s idx data
  refine ⟨runCommand_word (m := .wrs) nofun (fun hD => absurd rfl hD) nofun,
    fun _ hrsv => runCommand_row_faultedTo (m := .wrs) (.inl hrsv) idx s, exec_refusedTo rfl, ?badIndex, ?written⟩
  case badIndex =>
    intro he hi
    exact ⟨_, exec_wrs_of_gt he hi data, faultedTo_raise .badIndex s⟩
  case written =>
    intro he hi
    have hlt : idx.toNat < 21 := Nat.lt_succ_of_le hi
    refine ⟨_, exec_wrs he hi, ?word, ?others, fun _ => rfl, rfl, ⟨rfl, rfl⟩, ⟨rfl, rfl⟩, rfl⟩
    case word => rw [wAt_eq_readW _ hlt, readW_respond, readW_writeW_same]
    case others =>
      intro k hk
      rw [readW_respond, readW_writeW_other (Fin.ne_of_val_ne hk)]

/-- Settles O2: a read in range is its response and nothing else, whatever `ERR` is. -/
theorem rdsReadsOneWord : Obligations.RdsReadsOneWord := by
  unfold Obligations.RdsReadsOneWord
  intro s idx
  exact ⟨runCommand_word (m := .rds) nofun (fun _ => rfl) nofun,
    fun _ _ h => runCommand_row_faultedTo (m := .rds) (h.imp_right fun hdata => ⟨rfl, hdata⟩) idx s,
    fun hi => ⟨_, exec_rds_of_gt hi s, faultedTo_raise .badIndex s⟩,
    fun hi => ⟨_, exec_read (i := .rds idx) rfl hi, respond_frame s false _⟩⟩

/-- Settles O3: as for `RDS`, with the bound of `OUT`. -/
theorem rdoReadsOneOutput : Obligations.RdoReadsOneOutput := by
  unfold Obligations.RdoReadsOneOutput
  intro s idx
  exact ⟨runCommand_word (m := .rdo) nofun (fun _ => rfl) nofun,
    fun _ _ h => runCommand_row_faultedTo (m := .rdo) (h.imp_right fun hdata => ⟨rfl, hdata⟩) idx s,
    fun hi => ⟨_, exec_rdo_of_gt hi s, faultedTo_raise .badIndex s⟩,
    fun hi => ⟨_, exec_read (i := .rdo idx) rfl hi, respond_frame s false _⟩⟩

/-! The status word, bit by bit (10_state.md R35). -/

theorem getLsbD_statusWord (s : State) (n : Nat) :
    (statusWord s).getLsbD n =
      if n < 1 then s.err
      else if n < 4 then (causeCode s.cause).getLsbD (n - 1)
      else if n < 7 then (phCode s.ph).getLsbD (n - 4)
      else decide (n = 7) && s.hasPhase := by
  simp only [statusWord, BitVec.getLsbD_setWidth, BitVec.getLsbD_append, BitVec.getLsbD_ofBool, Nat.sub_sub,
    show n - 1 < 3 ↔ n < 4 by omega, show n - (1 + 3) < 3 ↔ n < 7 by omega]
  split_ifs with h1 h4 h7
  · simp [show n = 0 by omega]
  · simp [show n < 32 by omega]
  · simp [show n < 32 by omega]
  · have top_bit : (n < 32 ∧ n - (1 + 3 + 3) = 0) ↔ n = 7 := by omega
    rw [← Bool.and_assoc, ← Bool.decide_and, decide_eq_decide.mpr top_bit]

theorem statusWord_extract_causeCode (s : State) : (statusWord s).extractLsb' 1 3 = causeCode s.cause := by
  apply BitVec.eq_of_getLsbD_eq
  intro n hn
  simp [getLsbD_statusWord, hn, show 1 + n < 4 by omega]

/-- The bits above `HASPH` are 0. -/
theorem statusWord_extract_high (s : State) : (statusWord s).extractLsb' 8 24 = 0#24 := by
  apply BitVec.eq_of_getLsbD_eq
  intro n hn
  simp [getLsbD_statusWord, show ¬ 8 + n < 1 by omega, show ¬ 8 + n < 4 by omega, show ¬ 8 + n < 7 by omega,
    show ¬ 8 + n = 7 by omega]

/-- Settles O4: the read answers the status word, whose fields are `getLsbD_statusWord` and the two codes. -/
theorem rdstReadsStatus : Obligations.RdstReadsStatus := by
  unfold Obligations.RdstReadsStatus
  intro s
  obtain ⟨hw, hout, hph, hflags, hport, hanswer⟩ := respond_frame s false (statusWord s)
  refine ⟨runCommand_word (m := .rdst) (fun _ => rfl) (fun _ => rfl) nofun,
    fun _ _ _ h => runCommand_formatZ_faultedTo (m := .rdst) rfl h s,
    _, _, exec_read (i := .rdst) rfl trivial, hanswer, hw, hout, hph, hflags, hport, getLsbD_statusWord s 0,
    (statusWord_extract_causeCode s).trans ?cause, (statusWord_extract_phCode s).trans ?cursor, ?hasph,
    statusWord_extract_high s⟩
  case cause =>
    cases s.cause with
    | none => rfl
    | some f => cases f <;> rfl
  case cursor =>
    cases s.ph with
    | none => rfl
    | some k => cases k <;> rfl
  case hasph => exact (getLsbD_statusWord s 7).trans (by simp)

end Sys2Proof.Proofs
end

section
/-! While a fault is recorded (60_exceptions.md R208 to R210): every command is answered and nothing else changes, over
any sequence of commands, until a reset. -/

namespace Sys2Proof.Proofs

open Sys2Proof.Machine Sys2Proof.Safety Sys2Proof.Claims

/-! One command. -/

theorem refusedTo_refuse (s : State) : refusedTo s (refuse s) := respond_frame s true 0#32

section
variable {s : State} (he : s.err = true)
include he

/-- A word that does not decode is answered like a refused command. -/
theorem runCommand_error_of_err {c : BitVec 64} {e : Illegal} (h : decode s.hasPhase c = .error e) :
    runCommand c s = .next (refuse s) := by
  rw [runCommand_error h, raise_of_err he]

theorem exec_refusedTo_of_not_executes {i : Instr} (h : ¬ executes i s) : ∃ t, exec i s = .next t ∧ refusedTo s t :=
  ⟨_, exec_refused he h, refusedTo_refuse s⟩

theorem runCommand_refusedTo_of_error {c : BitVec 64} {e : Illegal} (h : decode s.hasPhase c = .error e) :
    ∃ t, runCommand c s = .next t ∧ refusedTo s t :=
  ⟨_, runCommand_error_of_err he h, refusedTo_refuse s⟩

/-- The whole effect of a command is its response: a read has no other, and every other command is refused. -/
theorem exec_of_err (i : Instr) : ∃ e d, exec i s = .next (s.respond e d) := by
  by_cases hex : executes i s
  case pos =>
    have hread : stateChanging i = false := by
      by_contra hi
      exact not_executes_of_err he (by simpa using hi) hex
    exact ⟨false, _, exec_read hread hex⟩
  case neg => exact ⟨true, 0#32, exec_refused he hex⟩

theorem runCommand_of_err (c : BitVec 64) : ∃ e d, runCommand c s = .next (s.respond e d) := by
  cases hdec : decode s.hasPhase c with
  | error e => exact ⟨true, 0#32, runCommand_error_of_err he hdec⟩
  | ok i =>
    rw [runCommand_ok hdec]
    exact exec_of_err he i

end

/-! Sequences of events at the port. -/

theorem serve_cons {ev : HostEvent} {events : List HostEvent} {s t : State}
    (h : step { s with port := ev :: events } = .next { t with port := events }) :
    serve (ev :: events) s = serve events t :=
  core_run_succ h events.length

/-- A reset ends whatever condition the block is in. -/
theorem serve_reset (s : State) : serve [.reset] s = .next ({ s with port := [] }).assertReset :=
  core_run_succ (step_reset rfl) 0

theorem serve_command_of_err {s : State} (he : s.err = true) (c : BitVec 64) (events : List HostEvent) :
    ∃ r : Response, serve (.command c :: events) s = serve events { s with responses := s.responses ++ [r] } := by
  obtain ⟨e, d, hrun⟩ := runCommand_of_err (s := { s with port := events }) he c
  exact ⟨⟨e, d⟩, serve_cons ((step_command rfl).trans hrun)⟩

/-- The commands of any sequence add their responses, one each, and the events after them find the same state. -/
theorem serve_commands_of_err {s : State} (he : s.err = true) (cs : List (BitVec 64)) (events : List HostEvent) :
    ∃ rs : List Response, rs.length = cs.length ∧
      serve (cs.map .command ++ events) s = serve events { s with responses := s.responses ++ rs } := by
  induction cs generalizing s with
  | nil => exact ⟨[], rfl, by simp⟩
  | cons c cs ih =>
    obtain ⟨r, hfirst⟩ := serve_command_of_err he c (cs.map .command ++ events)
    obtain ⟨rs, hlen, hrest⟩ := ih (s := { s with responses := s.responses ++ [r] }) he
    refine ⟨r :: rs, by simp [hlen], ?_⟩
    rw [List.map_cons, List.cons_append, hfirst, hrest, List.append_assoc, List.singleton_append]

/-- Settles O41: by induction on the commands (`serve_commands_of_err`) only responses are added, and the reset after
them is served from there. -/
theorem faultFreezesUntilReset : Obligations.FaultFreezesUntilReset := by
  unfold Obligations.FaultFreezesUntilReset
  intro s cs he
  constructor
  case left =>
    obtain ⟨rs, hlen, hserve⟩ := serve_commands_of_err he cs []
    rw [List.append_nil] at hserve
    have not_ended : ¬ s.err = false := by simp [he]
    exact ⟨_, hserve, fun _ => rfl, fun _ => rfl, rfl, ⟨rfl, rfl⟩, rfl, by simp [hlen], not_ended⟩
  case right =>
    obtain ⟨rs, -, hserve⟩ := serve_commands_of_err he cs [.reset]
    exact ⟨_, hserve.trans (serve_reset _), rfl, rfl, rfl⟩

/-- Settles O40: the state-changing commands are never executed, and a read in range always is. -/
theorem refusedWhileFaulted : Obligations.RefusedWhileFaulted := by
  unfold Obligations.RefusedWhileFaulted
  intro s he
  exact ⟨fun _ hi => exec_refusedTo hi he, fun idx hi => ⟨_, exec_read (i := .rds idx) rfl hi, respond_responses ..⟩,
    fun idx hi => ⟨_, exec_read (i := .rdo idx) rfl hi, respond_responses ..⟩,
    _, exec_read (i := .rdst) rfl trivial, respond_responses ..⟩

/-- Settles O42: a word that does not decode and a read out of range are answered like refused commands. -/
theorem firstCauseIsKept : Obligations.FirstCauseIsKept := by
  unfold Obligations.FirstCauseIsKept
  intro s he
  exact ⟨fun _ _ hdec => runCommand_refusedTo_of_error he hdec,
    fun idx hi => exec_refusedTo_of_not_executes (i := .rds idx) he (Nat.not_le.mpr hi),
    fun idx hi => exec_refusedTo_of_not_executes (i := .rdo idx) he (Nat.not_le.mpr hi)⟩

end Sys2Proof.Proofs
end

section
/-! The faults (60_exceptions.md R201 to R207): what taking one does, the condition of each, and which of them a command
word meets first. -/

namespace Sys2Proof.Proofs

open Sys2Proof.Machine Sys2Proof.Safety Sys2Proof.Claims

/-- Settles O37: `faultedTo_raise` is the statement, field by field. -/
theorem faultEntry : Obligations.FaultEntry := by
  unfold Obligations.FaultEntry
  exact faultedTo_raise

/-- Settles O38: an executed command answers error bit 0, and a refusal and a fault leave the words, the cursor and the
port. -/
theorem faultsArePrecise : Obligations.FaultsArePrecise := by
  unfold Obligations.FaultsArePrecise
  intro s c
  rcases runCommand_cases s c with ⟨i, -, hex, hrun⟩ | ⟨-, ⟨-, hrun⟩ | ⟨f, hrun⟩⟩
  case inl => exact ⟨_, _, hrun, effect_responses hex, nofun⟩
  case inr.inl =>
    obtain ⟨hw, hout, hph, -, hport, hanswer⟩ := refusedTo_refuse s
    exact ⟨_, _, hrun, hanswer, fun _ => ⟨hw, hout, hph, hport, rfl⟩⟩
  case inr.inr =>
    obtain ⟨-, -, -, hw, hout, hph, hport, hanswer⟩ := faultedTo_raise f s
    exact ⟨_, _, hrun, hanswer, fun _ => ⟨hw, hout, hph, hport, rfl⟩⟩

/-! The conditions of the three faults. -/

/-- The command's index operand is outside its range (R203). -/
def indexOutOfRange : Instr → Prop
  | .wrs idx _ => 20 < idx.toNat
  | .rds idx => 20 < idx.toNat
  | .rdo idx => 19 < idx.toNat
  | .rdst => False
  | .stepS => False
  | .stepR => False
  | .stepU => False
  | .stepP d => 4 < d.toNat

theorem indexOutOfRange_iff (i : Instr) :
    indexOutOfRange i ↔
      (∃ idx data, i = .wrs idx data ∧ 20 < idx.toNat) ∨ (∃ idx, i = .rds idx ∧ 20 < idx.toNat) ∨
        (∃ idx, i = .rdo idx ∧ 19 < idx.toNat) ∨ ∃ d, i = .stepP d ∧ 4 < d.toNat := by
  cases i <;> simp [indexOutOfRange]

/-- The condition under which a command word raises each fault while none is recorded: the table of R201. -/
def faultCondition (f : CmdFault) (s : State) (c : BitVec 64) : Prop :=
  match f with
  | .illegalCmd => ∃ e, decode s.hasPhase c = .error e
  | .badIndex => ∃ i, decode s.hasPhase c = .ok i ∧ indexOutOfRange i
  | .badRot => decode s.hasPhase c = .ok .stepR ∧ ¬ counterLegal (s.readW rotIndex)

/-- `STEP.P` decodes only on a block with the phase unit (30_encoding.md R75 step 5). -/
theorem hasPhase_of_decode_stepP {hasPhase : Bool} {c : BitVec 64} {d : BitVec 8}
    (h : decode hasPhase c = .ok (.stepP d)) : hasPhase = true :=
  (decode_mnemonic_iff.mp ⟨_, h, rfl⟩).2 rfl

/-- For a decoded command the condition says which fault it can be. -/
theorem faultCondition_eq {f : CmdFault} {s : State} {c : BitVec 64} {i : Instr} (hdec : decode s.hasPhase c = .ok i)
    (h : faultCondition f s c) : f = if i = .stepR then .badRot else .badIndex := by
  cases f with
  | illegalCmd =>
    obtain ⟨e, herror⟩ := h
    cases hdec.symm.trans herror
  | badIndex =>
    obtain ⟨j, hok, hindex⟩ := h
    obtain rfl : i = j := Except.ok.inj (hdec.symm.trans hok)
    have not_stepR : i ≠ .stepR := by
      rintro rfl
      exact hindex
    rw [if_neg not_stepR]
  | badRot =>
    obtain ⟨hok, -⟩ := h
    rw [if_pos (Except.ok.inj (hdec.symm.trans hok))]

/-! With no fault recorded, a word that meets a condition takes its fault, and any other is executed. -/

section
variable {s : State} (he : s.err = false)
include he

theorem exec_of_indexOutOfRange {i : Instr} (hunit : isStepP i = true → s.hasPhase = true) (hi : indexOutOfRange i) :
    exec i s = .next (raise .badIndex s) := by
  cases i with
  | wrs idx data => exact exec_wrs_of_gt he hi data
  | rds idx => exact exec_rds_of_gt hi s
  | rdo idx => exact exec_rdo_of_gt hi s
  | stepP d =>
    obtain ⟨k, hk⟩ := Option.isSome_iff_exists.mp (hunit rfl)
    exact exec_stepP_of_gt he hk hi
  | rdst | stepS | stepR | stepU => exact hi.elim

theorem runCommand_of_faultCondition {f : CmdFault} {c : BitVec 64} (h : faultCondition f s c) :
    runCommand c s = .next (raise f s) := by
  cases f with
  | illegalCmd =>
    obtain ⟨e, hdec⟩ := h
    exact runCommand_error hdec
  | badIndex =>
    obtain ⟨i, hdec, hi⟩ := h
    have hunit : isStepP i = true → s.hasPhase = true := by
      intro hstepP
      cases i with
      | stepP d => exact hasPhase_of_decode_stepP hdec
      | wrs | rds | rdo | rdst | stepS | stepR | stepU => cases hstepP
    exact (runCommand_ok hdec).trans (exec_of_indexOutOfRange he hunit hi)
  | badRot =>
    obtain ⟨hdec, hc⟩ := h
    exact (runCommand_ok hdec).trans (exec_stepR_of_not_counterLegal he hc)

/-- The checks of a decoded command are the index and the counter: one of the two keeps it from being executed. -/
theorem faultCondition_of_not_executes {c : BitVec 64} {i : Instr} (hdec : decode s.hasPhase c = .ok i)
    (hno : ¬ executes i s) : ∃ f, faultCondition f s c := by
  cases i with
  | wrs idx data => exact ⟨.badIndex, _, hdec, Nat.lt_of_not_le fun hi => hno ⟨he, hi⟩⟩
  | rds | rdo => exact ⟨.badIndex, _, hdec, Nat.lt_of_not_le hno⟩
  | rdst => exact absurd trivial hno
  | stepS | stepU => exact absurd he hno
  | stepR => exact ⟨.badRot, hdec, fun hc => hno ⟨he, hc⟩⟩
  | stepP d => exact ⟨.badIndex, _, hdec, Nat.lt_of_not_le fun hd => hno ⟨hasPhase_of_decode_stepP hdec, he, hd⟩⟩

theorem executes_of_no_faultCondition {c : BitVec 64} (h : ∀ f, ¬ faultCondition f s c) :
    ∃ i, decode s.hasPhase c = .ok i ∧ executes i s := by
  cases hdec : decode s.hasPhase c with
  | error e => exact absurd ⟨e, hdec⟩ (h .illegalCmd)
  | ok i =>
    refine ⟨i, rfl, ?_⟩
    by_contra hno
    obtain ⟨f, hf⟩ := faultCondition_of_not_executes he hdec hno
    exact h f hf

/-- The conditions exclude each other: a word takes one fault. -/
theorem faultCondition_unique {f f' : CmdFault} {c : BitVec 64} (h : faultCondition f s c)
    (h' : faultCondition f' s c) : f = f' := by
  have hraise : raise f s = raise f' s :=
    Host.Outcome.next.inj ((runCommand_of_faultCondition he h).symm.trans (runCommand_of_faultCondition he h'))
  simpa [he] using congrArg State.cause hraise

/-- What the next state records says which condition the word met, and a fault recorded is all that happened. -/
theorem runCommand_of_clear (c : BitVec 64) :
    ∃ t, runCommand c s = .next t ∧ (∀ f, t.err = true ∧ t.cause = some f ↔ faultCondition f s c) ∧
      (t.err = true → ∃ f, t = raise f s) := by
  by_cases hfault : ∃ f, faultCondition f s c
  case pos =>
    obtain ⟨f, hf⟩ := hfault
    refine ⟨_, runCommand_of_faultCondition he hf, fun f' => ?_, fun _ => ⟨f, rfl⟩⟩
    have records : (raise f s).err = true ∧ (raise f s).cause = some f' ↔ f = f' := by simp [he]
    rw [records]
    exact ⟨fun h => h ▸ hf, fun hf' => faultCondition_unique he hf hf'⟩
  case neg =>
    have hnone := not_exists.mp hfault
    obtain ⟨i, hdec, hex⟩ := executes_of_no_faultCondition he hnone
    obtain ⟨herr, -⟩ := effect_frame i s
    have clear : (effect i s).err ≠ true := by simp [herr, he]
    exact ⟨_, (runCommand_ok hdec).trans (exec_of_executes hex),
      fun f => iff_of_false (fun ⟨h, _⟩ => clear h) (hnone f), fun h => absurd h clear⟩

end

/-- Settles O36: the three equivalences are `runCommand_of_clear` at the three faults, and the rest is what taking a
fault does. -/
theorem faultsAndTheirCauses : Obligations.FaultsAndTheirCauses := by
  unfold Obligations.FaultsAndTheirCauses
  intro s c he
  obtain ⟨t, hrun, hrecords, hraise⟩ := runCommand_of_clear he c
  simp only [← indexOutOfRange_iff]
  refine ⟨t, hrun, hrecords .illegalCmd, hrecords .badIndex, hrecords .badRot, fun herr => ?_⟩
  obtain ⟨f, rfl⟩ := hraise herr
  obtain ⟨-, hcause, -, hw, hout, hph, -, hanswer⟩ := faultedTo_raise f s
  exact ⟨Option.ne_none_iff_exists'.mpr ⟨f, hcause he⟩, hw, hout, hph, hanswer⟩

/-- Settles O39: a word that does not decode is checked for nothing else; a decoded command that is not executed is
refused if a fault is recorded, and else takes the fault whose condition it meets. -/
theorem orderOfChecks : Obligations.OrderOfChecks := by
  unfold Obligations.OrderOfChecks
  refine ⟨fun _ _ _ hdec => runCommand_faultedTo hdec, ?refused, ?notExecuted, ?clear,
    fun _ _ _ hdec he => runCommand_refusedTo_of_error he hdec, ?example_word⟩
  case refused =>
    intro s c i hdec he hi
    rw [runCommand_ok hdec]
    exact exec_refusedTo hi he
  case notExecuted =>
    intro s c i hdec he hno
    rw [runCommand_ok hdec]
    exact exec_refusedTo_of_not_executes he hno
  case clear =>
    intro s c i hdec he hno
    obtain ⟨f, hf⟩ := faultCondition_of_not_executes he hdec hno
    rw [← faultCondition_eq hdec hf]
    exact ⟨_, runCommand_of_faultCondition he hf, faultedTo_raise f s⟩
  case example_word =>
    intro s he
    have rsv_nonzero : (1#16 : BitVec 16) ≠ 0#16 := by decide
    obtain ⟨t, hrun, -, hcause, -⟩ := runCommand_row_faultedTo (m := .wrs) (data := 0#32) (.inl rsv_nonzero) 200#8 s
    exact ⟨t, hrun, hcause he⟩

end Sys2Proof.Proofs
end

section
/-! The outputs of a command (70_reset_and_hazards.md R246): the words of `OUT` it writes, how many they are, and that
their new values come from `W` alone. -/

namespace Sys2Proof.Proofs

open Sys2Proof.Machine Sys2Proof.Safety Sys2Proof.Claims

/-! The words each command writes. -/

theorem mem_sliceWords_iff {k : Fin 20} {d : Slot} : k ∈ sliceWords d ↔ ∃ j, k = outIndex d j := by
  simp [sliceWords, Fin.exists_fin_succ]

theorem sliceWords_nodup : ∀ d : Slot, (sliceWords d).Nodup := by decide

theorem mem_writesOut_stepU : ∀ k, k ∈ writesOut .stepU := by decide

theorem writesOut_stepP_of_le {d : BitVec 8} (hd : d.toNat ≤ 4) :
    writesOut (.stepP d) = sliceWords ⟨d.toNat, Nat.lt_succ_of_le hd⟩ := by
  simp [writesOut, sliceOperand_of_le hd]

/-- The words are pairwise different and as many as R246 says. -/
theorem writesOut_nodup_length {i : Instr} {s : State} (h : executes i s) :
    (writesOut i).Nodup ∧ (writesOut i).length = outputsPerCommand i := by
  cases i with
  | wrs | rds | rdo | rdst => exact ⟨List.nodup_nil, rfl⟩
  | stepS => exact ⟨List.nodup_singleton 0, rfl⟩
  | stepR => exact ⟨sliceWords_nodup 0, rfl⟩
  | stepU => decide
  | stepP d =>
    obtain ⟨-, -, hd⟩ := h
    rw [writesOut_stepP_of_le hd]
    exact ⟨sliceWords_nodup _, rfl⟩

/-! What an executed command does to `OUT`. -/

theorem readOut_vectorStep_of_not_mem {k : Fin 20} {d : Slot} (hk : k ∉ sliceWords d) (s : State) (row : RoundRow) :
    (vectorStep s row d).readOut k = s.readOut k := by
  obtain ⟨d', j, rfl⟩ := outIndex_cases k
  have hne : d' ≠ d := by
    rintro rfl
    exact hk (mem_sliceWords_iff.mpr ⟨j, rfl⟩)
  rw [readOut_vectorStep, if_neg hne]

/-- The outputs of a vector step come from the data words, whatever `OUT` held. -/
theorem readOut_vectorStep_of_mem {s s' : State} (hdata : ∀ k, k ≠ rotIndex → s'.readW k = s.readW k) {k : Fin 20}
    {d : Slot} (hk : k ∈ sliceWords d) (row : RoundRow) :
    (vectorStep s' row d).readOut k = (vectorStep s row d).readOut k := by
  obtain ⟨j, rfl⟩ := mem_sliceWords_iff.mp hk
  have hslot (q : Slot) : s'.readW (wIndex q j) = s.readW (wIndex q j) := hdata _ (wIndex_ne_rot q j)
  simp only [readOut_vectorStep, stepWord, hslot, if_true]

/-- Once executed, `STEP.P` is the round of its cursor, the cursor's advance, and the response. -/
theorem effect_stepP {d : BitVec 8} {s : State} {k : Phase} (hk : s.ph = some k) (hd : d.toNat ≤ 4) :
    effect (.stepP d) s =
      ((roundOp k ⟨d.toNat, Nat.lt_succ_of_le hd⟩ s).setPh k.next).respond false 0#32 := by
  simp [effect, hk, sliceOperand_of_le hd, runPhase_eq]

/-- The frame in `OUT`: no word beside those of the command's row. -/
theorem readOut_effect_of_not_mem {i : Instr} {s : State} (h : executes i s) {k : Fin 20} (hk : k ∉ writesOut i) :
    (effect i s).readOut k = s.readOut k := by
  cases i with
  | wrs | rds | rdo => simp only [effect]; split <;> rfl
  | rdst => rfl
  | stepS =>
    have hpos : 0 < k.val := Fin.pos_iff_ne_zero.mpr (mt List.mem_singleton.mpr hk)
    exact readOut_effect_stepS_of_pos hpos s
  | stepR =>
    obtain ⟨-, hc⟩ := h
    obtain ⟨q, hq⟩ := (counterLegal_iff _).mp hc
    rw [effect_stepR hq, readOut_respond, readOut_vectorStep_of_not_mem hk, readOut_writeW]
  | stepU => exact absurd (mem_writesOut_stepU k) hk
  | stepP d =>
    obtain ⟨hp, -, hd⟩ := h
    obtain ⟨p, hp⟩ := Option.isSome_iff_exists.mp hp
    rw [writesOut_stepP_of_le hd] at hk
    rw [effect_stepP hp hd, readOut_respond, readOut_setPh, roundOp, readOut_vectorStep_of_not_mem hk]

section
variable {s s' : State} (hw : s'.w = s.w) (hph : s'.ph = s.ph)
include hw hph

/-- The checks of a command read `ERR`, the counter and `PH`. -/
theorem executes_congr (herr : s'.err = s.err) {i : Instr} (h : executes i s) : executes i s' := by
  cases i with
  | wrs | stepS | stepU => simpa only [executes, herr] using h
  | rds | rdo | rdst => exact h
  | stepR => simpa only [executes, herr, readW_congr hw] using h
  | stepP d => simpa only [executes, herr, hasPhase_eq, hph] using h

/-- The words a command writes get values that `W` and `PH` decide, whatever `OUT` held. -/
theorem readOut_effect_of_mem {i : Instr} (h : executes i s) {k : Fin 20} (hk : k ∈ writesOut i) :
    (effect i s').readOut k = (effect i s).readOut k := by
  cases i with
  | wrs | rds | rdo | rdst => cases hk
  | stepS =>
    obtain rfl : k = 0 := List.mem_singleton.mp hk
    have hwindow : s'.scalarWindow = s.scalarWindow := by simp only [State.scalarWindow, readW_congr hw]
    simp only [effect, readOut_respond, readOut_writeOut_same, hwindow]
  | stepR =>
    obtain ⟨-, hc⟩ := h
    obtain ⟨q, hq⟩ := (counterLegal_iff _).mp hc
    have hq' : s'.readW rotIndex = slotCounter q := (readW_congr hw rotIndex).trans hq
    rw [effect_stepR hq, effect_stepR hq', readOut_respond, readOut_respond]
    refine readOut_vectorStep_of_mem (fun i hi => ?_) hk _
    rw [readW_writeW_other hi, readW_writeW_other hi, readW_congr hw]
  | stepU =>
    have hrounds := readOut_fiveRounds_of_data (fun i _ => readW_congr hw i) k
    simpa only [effect, readOut_respond] using hrounds
  | stepP d =>
    obtain ⟨hp, -, hd⟩ := h
    obtain ⟨p, hp⟩ := Option.isSome_iff_exists.mp hp
    rw [writesOut_stepP_of_le hd] at hk
    have hround := readOut_vectorStep_of_mem (fun i _ => readW_congr hw i) hk (roundTable p)
    simpa only [effect_stepP hp hd, effect_stepP (hph.trans hp) hd, readOut_respond, readOut_setPh, roundOp]
      using hround

end

/-- Settles O32: the state is `effect i s`, which writes the words of `writesOut i` from `W` and `PH` and leaves the
other words of `OUT`. -/
theorem outputsPerCommand : Obligations.OutputsPerCommand := by
  unfold Obligations.OutputsPerCommand
  intro i s h
  obtain ⟨hnodup, hlength⟩ := writesOut_nodup_length h
  refine ⟨hnodup, hlength, _, exec_of_executes h, fun _ hk => readOut_effect_of_not_mem h hk, ?sameOutputs⟩
  case sameOutputs =>
    intro s' hw hph herr
    have h' : executes i s' := executes_congr hw hph herr h
    exact ⟨_, exec_of_executes h', fun _ hk => readOut_effect_of_mem hw hph h hk,
      fun _ hk => readOut_effect_of_not_mem h' hk⟩

end Sys2Proof.Proofs
end

section
/-! Reset (70_reset_and_hazards.md R230): the state it leaves runs the step commands, and no step without a reset clears
`ERR` or `CAUSE` or sets `PH` to a chosen value. -/

namespace Sys2Proof.Proofs

open Sys2Proof.Machine Sys2Proof.Safety Sys2Proof.Claims

/-! The state after reset. -/

theorem atReset_hasPhase (b : Bool) (n : Nat) (p : List HostEvent) (r : List Response) :
    (State.atReset b n p r).hasPhase = b := by
  cases b <;> rfl

/-- The reset state has no fault recorded and the legal counter 0, so it executes the step commands that need no
phase unit. -/
theorem executes_step_atReset (b : Bool) (n : Nat) (p : List HostEvent) (r : List Response) {i : Instr}
    (hi : i = .stepS ∨ i = .stepR ∨ i = .stepU) : executes i (State.atReset b n p r) := by
  have clear : (State.atReset b n p r).err = false := atReset_err ..
  have counter : counterLegal ((State.atReset b n p r).readW rotIndex) :=
    .inl ((wAt_rot _).symm.trans (wAt_atReset_rotIndex ..))
  rcases hi with rfl | rfl | rfl
  exacts [clear, ⟨clear, counter⟩, clear]

/-! A step that serves no reset. -/

/-- From `s` to `t` no fault recorded was cleared, and the cursor stayed or advanced by one modulo 5. -/
structure KeepsFaultAndCursor (s t : State) : Prop where
  err : s.err = true → t.err = true
  cause : s.cause ≠ none → t.cause ≠ none
  cursor : t.ph = s.ph ∨
    ∃ k k' : Phase, s.ph = some k ∧ t.ph = some k' ∧ k'.number.val = (k.number.val + 1) % 5

theorem keepsFaultAndCursor_refl (s : State) : KeepsFaultAndCursor s s := ⟨id, id, .inl rfl⟩

theorem keepsFaultAndCursor_refuse (s : State) : KeepsFaultAndCursor s (refuse s) := ⟨id, id, .inl (refuse_ph s)⟩

theorem keepsFaultAndCursor_raise (f : CmdFault) (s : State) : KeepsFaultAndCursor s (raise f s) := by
  refine ⟨fun _ => raise_err s f, fun hcause => ?_, .inl (raise_ph s f)⟩
  rw [raise_cause]
  split
  · exact hcause
  · exact Option.some_ne_none f

/-- An executed command leaves the flags, and only `STEP.P` moves the cursor. -/
theorem keepsFaultAndCursor_effect {i : Instr} {s : State} (h : executes i s) :
    KeepsFaultAndCursor s (effect i s) := by
  obtain ⟨herr, hcause, -⟩ := effect_frame i s
  refine ⟨herr.trans, fun hs => hcause ▸ hs, ?cursor⟩
  case cursor =>
    cases i with
    | stepP d =>
      obtain ⟨hp, -, hd⟩ := h
      obtain ⟨k, hk⟩ := Option.isSome_iff_exists.mp hp
      exact .inr ⟨k, k.next, hk, effect_stepP_ph hd hk, val_number_next k⟩
    | wrs | rds | rdo | rdst | stepS | stepR | stepU => exact .inl (effect_ph_of_not_stepP rfl s)

theorem keepsFaultAndCursor_runCommand {c : BitVec 64} {s t : State} (h : runCommand c s = .next t) :
    KeepsFaultAndCursor s t := by
  rcases runCommand_cases s c with ⟨i, -, hex, hrun⟩ | ⟨-, ⟨-, hrun⟩ | ⟨f, hrun⟩⟩ <;>
    obtain rfl := Host.Outcome.next.inj (hrun.symm.trans h)
  · exact keepsFaultAndCursor_effect hex
  · exact keepsFaultAndCursor_refuse s
  · exact keepsFaultAndCursor_raise f s

/-- What a step can serve: a reset of either kind, or else nothing or a command. -/
theorem step_reset_or_keepsFaultAndCursor {s t : State} (h : step s = .next t) :
    (∃ rest, s.port = .reset :: rest ∨ ∃ c, s.port = .resetDuring c :: rest) ∨ KeepsFaultAndCursor s t := by
  cases hport : s.port with
  | nil =>
    obtain rfl := Host.Outcome.next.inj ((step_idle hport).symm.trans h)
    exact .inr (keepsFaultAndCursor_refl s)
  | cons ev rest =>
    cases ev with
    | command c =>
      obtain ⟨herr, hcause, hcursor⟩ := keepsFaultAndCursor_runCommand ((step_command hport).symm.trans h)
      exact .inr ⟨herr, hcause, hcursor⟩
    | reset => exact .inl ⟨rest, .inl rfl⟩
    | resetDuring c => exact .inl ⟨rest, .inr ⟨c, rfl⟩⟩

/-- Settles O47: a reset answers `State.atReset`, and every other step keeps what `KeepsFaultAndCursor` says. -/
theorem resetClearsFault : Obligations.ResetClearsFault := by
  unfold Obligations.ResetClearsFault
  refine ⟨?reset, fun s t h => (step_reset_or_keepsFaultAndCursor h).imp_right ?others⟩
  case reset =>
    intro s rest hport
    have hstep : step s = .next (State.atReset s.hasPhase (s.resets + 1) rest s.responses) := step_reset hport
    refine ⟨_, hstep, atReset_hasPhase .., fun hunit => ?cursor, atReset_err .., atReset_cause ..,
      wAt_atReset_rotIndex .., fun _ hk => ⟨wAt_atReset_of_lt _ _ _ _ hk, outAt_atReset _ _ _ _ hk⟩, step_idle,
      ?executed⟩
    case cursor => rw [atReset_ph, hunit, if_pos rfl]
    case executed =>
      intro i hi
      obtain ⟨herr, -⟩ := effect_frame i (State.atReset s.hasPhase (s.resets + 1) rest s.responses)
      exact ⟨_, exec_of_executes (executes_step_atReset _ _ _ _ hi), herr.trans (atReset_err ..)⟩
  case others =>
    rintro ⟨herr, hcause, hcursor⟩
    exact ⟨herr, hcause, hcursor⟩

end Sys2Proof.Proofs
end

section
/-! Encoding (30_encoding.md R71 to R75): the word of a command decodes to the command, and a word that decodes is the one
word of its command. -/

namespace Sys2Proof.Proofs

open Sys2Proof.Laws

/-! The lemmas over the constructors, as facts about every command. -/

theorem rowMakesCommand (i : Instr) : RowMakesCommand.Statement i := by
  cases i with
  | wrs idx data => exact RowMakesCommand.wrs idx data
  | rds idx => exact RowMakesCommand.rds idx
  | rdo idx => exact RowMakesCommand.rdo idx
  | rdst => exact RowMakesCommand.rdst
  | stepS => exact RowMakesCommand.stepS
  | stepR => exact RowMakesCommand.stepR
  | stepU => exact RowMakesCommand.stepU
  | stepP d => exact RowMakesCommand.stepP d

theorem phaseUnitCommand (i : Instr) : PhaseUnitCommand.Statement i := by
  cases i with
  | wrs idx data => exact PhaseUnitCommand.wrs idx data
  | rds idx => exact PhaseUnitCommand.rds idx
  | rdo idx => exact PhaseUnitCommand.rdo idx
  | rdst => exact PhaseUnitCommand.rdst
  | stepS => exact PhaseUnitCommand.stepS
  | stepR => exact PhaseUnitCommand.stepR
  | stepU => exact PhaseUnitCommand.stepU
  | stepP d => exact PhaseUnitCommand.stepP d

/-- Settles O54: the fields of `encode i` are the command's own, its row makes the command again from them, and the checks
of R75 are on fields that are 0. -/
theorem decodeOfEncode : Obligations.DecodeOfEncode := by
  unfold Obligations.DecodeOfEncode
  intro hasPhase i hwf
  obtain ⟨hcommand, hidx, hdata⟩ := rowMakesCommand i
  refine decode_eq_ok.mpr ⟨i.mnemonic, rsvField_encode i, opField_encode i, ?idx, ?data, (phaseUnitCommand i _).mp hwf,
    ?command⟩
  case idx => rwa [idxField_encode]
  case data => rwa [dataField_encode]
  case command => rw [idxField_encode, dataField_encode, hcommand]

/-! A command carries the operands its row was given, where the fields the row's format does not use are 0. -/

theorem idx_command {m : Mnemonic} {idx : BitVec 8} (h : m.format = .Z → idx = 0#8) (data : Word) :
    (m.command idx data).idx = idx := by
  cases m with
  | wrs | rds | rdo | stepP => rfl
  | rdst | stepS | stepR | stepU => exact (h rfl).symm

theorem data_command {m : Mnemonic} {data : Word} (h : m.format ≠ .D → data = 0#32) (idx : BitVec 8) :
    (m.command idx data).data = data := by
  cases m with
  | wrs => rfl
  | rds | rdo | rdst | stepS | stepR | stepU | stepP => exact (h nofun).symm

/-- Settles O55: the word of the decoded command has the fields of the word it was decoded from. -/
theorem encodeOfDecode : Obligations.EncodeOfDecode := by
  unfold Obligations.EncodeOfDecode
  intro hasPhase c i hdec
  obtain ⟨m, hrsv, hop, hidx, hdata, hunit, rfl⟩ := decode_eq_ok.mp hdec
  refine ⟨?word, (phaseUnitCommand _ _).mpr (by rwa [mnemonic_command])⟩
  case word =>
    rw [encode, mnemonic_command, idx_command hidx, data_command hdata, ← hop, ← hrsv, fields_eq]

/-- Settles O58: each word is the word of its command by evaluation, so `decodeOfEncode` decodes it. -/
theorem sampleWordsDecode : Obligations.SampleWordsDecode := by
  unfold Obligations.SampleWordsDecode
  exact ⟨decodeOfEncode true (.wrs 20#8 5#32) rfl, decodeOfEncode true (.rds 20#8) rfl,
    decodeOfEncode true (.rdo 19#8) rfl, decodeOfEncode true .rdst rfl, decodeOfEncode true .stepS rfl,
    decodeOfEncode true .stepR rfl, decodeOfEncode true .stepU rfl, decodeOfEncode true (.stepP 4#8) rfl⟩

end Sys2Proof.Proofs
end

section
/-! What a step keeps (10_state.md R38): the four things a step can do, and the invariants each of them keeps. -/

namespace Sys2Proof.Proofs

open Sys2Proof.Machine Sys2Proof.Safety Sys2Proof.Claims

/-! The step, inverted. -/

/-- What a step can do: idle, reset the block, run a command that is executed, or answer a command word with a fault (a
refusal is a fault taken while one is recorded, `raise_of_err`). -/
theorem step_cases (s : State) : ∃ t, step s = .next t ∧
    (t = s ∨
      (∃ p r, t = State.atReset s.hasPhase (s.resets + 1) p r) ∨
      (∃ c rest i, s.port = .command c :: rest ∧ decode s.hasPhase c = .ok i ∧
        executes i { s with port := rest } ∧ t = effect i { s with port := rest }) ∨
      ∃ f rest, t = raise f { s with port := rest }) := by
  cases hport : s.port with
  | nil => exact ⟨s, step_idle hport, .inl rfl⟩
  | cons ev rest =>
    cases ev with
    | reset => exact ⟨_, step_reset hport, .inr (.inl ⟨rest, s.responses, rfl⟩)⟩
    | resetDuring c =>
      obtain ⟨v, hrun⟩ := runCommand_next { s with port := rest } c
      rcases abandonCommand_cases hrun with h | h
      · exact ⟨_, (step_resetDuring hport).trans h, .inr (.inl ⟨rest, s.responses, rfl⟩)⟩
      · exact ⟨_, (step_resetDuring hport).trans h, .inr (.inl ⟨rest, v.responses, rfl⟩)⟩
    | command c =>
      rw [step_command hport]
      rcases runCommand_cases { s with port := rest } c with ⟨i, hdec, hex, hrun⟩ | ⟨-, ⟨he, hrun⟩ | ⟨f, hrun⟩⟩
      · exact ⟨_, hrun, .inr (.inr (.inl ⟨c, rest, i, rfl, hdec, hex, rfl⟩))⟩
      · exact ⟨_, hrun, .inr (.inr (.inr ⟨.illegalCmd, rest, (raise_of_err he _).symm⟩))⟩
      · exact ⟨_, hrun, .inr (.inr (.inr ⟨f, rest, rfl⟩))⟩

/-! The phase unit. -/

/-- Settles O45: a reset keeps the build, an executed command keeps the unit by `effect_frame`, and a fault keeps `PH`. -/
theorem phaseUnitIsFixed : Obligations.PhaseUnitIsFixed := by
  unfold Obligations.PhaseUnitIsFixed
  intro s
  obtain ⟨t, hstep, hcases⟩ := step_cases s
  refine ⟨t, hstep, ?_⟩
  rcases hcases with rfl | ⟨p, r, rfl⟩ | ⟨c, rest, i, -, -, -, rfl⟩ | ⟨f, rest, rfl⟩
  case inl => rfl
  case inr.inl => exact atReset_hasPhase ..
  case inr.inr.inl =>
    obtain ⟨-, -, -, -, hunit⟩ := effect_frame i { s with port := rest }
    exact hunit
  case inr.inr.inr => exact congrArg Option.isSome (raise_ph _ f)

/-! `ERR` and `CAUSE`. -/

/-- A fault sets `ERR`, and leaves a cause recorded: its own if it is the first, and else the one recorded before. -/
theorem flagsAgree_raise {s : State} (h : flagsAgree s) (f : CmdFault) : flagsAgree (raise f s) := by
  refine iff_of_false (by simp) ?_
  rw [raise_cause]
  split
  case isTrue he => exact mt h.mpr (by simp [he])
  case isFalse => exact Option.some_ne_none f

/-- Settles O50: a reset clears both, an executed command leaves both, and a fault leaves both set. -/
theorem everyStepKeepsFlagsAgreeing : Obligations.EveryStepKeepsFlagsAgreeing := by
  unfold Obligations.EveryStepKeepsFlagsAgreeing
  intro s hflags
  obtain ⟨t, hstep, hcases⟩ := step_cases s
  refine ⟨t, hstep, ?_⟩
  rcases hcases with rfl | ⟨p, r, rfl⟩ | ⟨c, rest, i, -, -, -, rfl⟩ | ⟨f, rest, rfl⟩
  case inl => exact hflags
  case inr.inl => exact iff_of_true (atReset_err ..) (atReset_cause ..)
  case inr.inr.inl =>
    obtain ⟨herr, hcause, -⟩ := effect_frame i { s with port := rest }
    rw [flagsAgree, herr, hcause]
    exact hflags
  case inr.inr.inr => exact flagsAgree_raise (s := { s with port := rest }) hflags f

/-! The rotation counter. -/

theorem counterLegal_slotCounter (q : Slot) : counterLegal (slotCounter q) := (counterLegal_iff _).mpr ⟨q, rfl⟩

theorem counterLegal_atReset (b : Bool) (n : Nat) (p : List HostEvent) (r : List Response) :
    counterLegal ((State.atReset b n p r).readW rotIndex) :=
  .inl ((wAt_rot _).symm.trans (wAt_atReset_rotIndex b n p r))

/-- The counter after an executed command: a `WRS` of `W[20]` sets it, `STEP.R` moves it to the next slot's, and no other
command writes it. -/
theorem counterLegal_effect {i : Instr} {s : State} (hex : executes i s) (hkeeps : keepsCounterLegal i)
    (hlegal : counterLegal (s.readW rotIndex)) : counterLegal ((effect i s).readW rotIndex) := by
  cases i with
  | wrs idx data =>
    obtain ⟨-, hi⟩ := hex
    have hwritten : (effect (.wrs idx data) s).readW rotIndex = if idx = 20#8 then data else s.readW rotIndex := by
      have hindex : rotIndex = ⟨idx.toNat, Nat.lt_succ_of_le hi⟩ ↔ idx = 20#8 := by
        rw [Fin.ext_iff, ← BitVec.toNat_inj]
        exact eq_comm
      simp only [effect, wOperand_of_le hi, readW_respond, readW_writeW, hindex]
    rw [hwritten]
    split
    case isTrue hidx => exact hkeeps hidx
    case isFalse => exact hlegal
  | rds | rdo | rdst => rwa [effect_of_read rfl hex, readW_respond]
  | stepS => rwa [readW_effect_stepS_of_gt (by decide)]
  | stepR =>
    obtain ⟨q, hq⟩ := (counterLegal_iff _).mp hlegal
    rw [readW_effect_stepR_rot hq]
    exact counterLegal_slotCounter (q + 1)
  | stepU => rwa [effect, readW_respond, readW_fiveRounds_rot]
  | stepP d =>
    obtain ⟨hp, -, hd⟩ := hex
    obtain ⟨k, hk⟩ := Option.isSome_iff_exists.mp hp
    rwa [effect_stepP hk hd, readW_respond, readW_setPh, readW_round_rot]

/-- Settles O51: a reset sets the counter to 0, a fault leaves it, and what an executed command does to it is
`counterLegal_effect`. -/
theorem everyStepKeepsCounterLegal : Obligations.EveryStepKeepsCounterLegal := by
  unfold Obligations.EveryStepKeepsCounterLegal
  intro s hlegal hhost
  obtain ⟨t, hstep, hcases⟩ := step_cases s
  refine ⟨t, hstep, ?_⟩
  rcases hcases with rfl | ⟨p, r, rfl⟩ | ⟨c, rest, i, hport, hdec, hex, rfl⟩ | ⟨f, rest, rfl⟩
  case inl => exact hlegal
  case inr.inl => exact counterLegal_atReset ..
  case inr.inr.inl => exact counterLegal_effect hex (hhost c rest i hport hdec) hlegal
  case inr.inr.inr =>
    rw [readW_raise]
    exact hlegal

/-- Settles O49: the power-on state is a reset state. -/
theorem resetMeetsInvariant : Obligations.ResetMeetsInvariant := by
  unfold Obligations.ResetMeetsInvariant
  exact ⟨iff_of_true (atReset_err ..) (atReset_cause ..), counterLegal_atReset ..⟩

end Sys2Proof.Proofs
end

section
/-! The step and the commands it runs (20_memory.md R59, 43_phase_dispatch.md R168 and R173, 70_reset_and_hazards.md
R231). -/

namespace Sys2Proof.Proofs

open Sys2Proof.Machine Sys2Proof.Safety Sys2Proof.Claims

/-- Settles O44: the command is taken from the port first, and a word either decodes or takes the fault. -/
theorem stepRunsDecodedCommand : Obligations.StepRunsDecodedCommand := by
  unfold Obligations.StepRunsDecodedCommand
  intro s c rest hport
  rw [step_command hport]
  exact ⟨rfl, fun _ hdec => runCommand_ok (s := { s with port := rest }) hdec,
    fun _ hdec => runCommand_faultedTo (s := { s with port := rest }) hdec⟩

/-- Settles O13: the word does not decode without the unit, and the status word has `HASPH` in bit 7 and the cursor's code
in bits 6:4. -/
theorem noPhaseUnitMakesStepPIllegal : Obligations.NoPhaseUnitMakesStepPIllegal := by
  unfold Obligations.NoPhaseUnitMakesStepPIllegal
  intro s hunit
  refine ⟨fun d => runCommand_stepP_faultedTo (.inr (.inr hunit)) d, _, statusWord s, exec_read (i := .rdst) rfl trivial,
    respond_responses .., ?hasph, ?cursor⟩
  case hasph =>
    rw [getLsbD_statusWord, hunit]
    rfl
  case cursor =>
    have absent : s.ph = none := by simpa using hunit
    rw [statusWord_extract_phCode, absent, phCode]

/-- Settles O53: an executed command moves the cursor by what it counts for, and a refusal and a fault leave it. -/
theorem onlyStepPMovesCursor : Obligations.OnlyStepPMovesCursor := by
  unfold Obligations.OnlyStepPMovesCursor
  intro i s
  rcases exec_cases i s with ⟨hex, hrun⟩ | ⟨hno, -, hrun⟩ | ⟨hno, f, hrun⟩
  case inl =>
    refine ⟨_, hrun, fun h => effect_ph_of_not_stepP (h.resolve_right (not_not_intro hex)) s, fun k hP _ hk => ?_⟩
    obtain ⟨k', hk', hnum⟩ := effect_ph_number hex hk
    have advances : advancesCursor i s = true := by rw [advancesCursor, hP, completes_iff.mpr hex, Bool.and_self]
    rw [advances, if_pos rfl] at hnum
    exact ⟨k', hk', hnum⟩
  case inr.inl => exact ⟨_, hrun, fun _ => refuse_ph s, fun _ _ hex => absurd hex hno⟩
  case inr.inr => exact ⟨_, hrun, fun _ => raise_ph s f, fun _ _ hex => absurd hex hno⟩

/-- Settles O48: the two kinds of reset differ in the responses alone, where the abandoned command's may be delivered. -/
theorem resetAbandonsCommand : Obligations.ResetAbandonsCommand := by
  unfold Obligations.ResetAbandonsCommand
  intro s c rest hport
  obtain ⟨v, r, hrun, -, hresp, -⟩ := runCommand_response { s with port := rest } c
  have hreset : step { s with port := .reset :: rest } = .next ({ s with port := rest }).assertReset := step_reset rfl
  have hcounter (b n p l) : wAt (State.atReset b n p l) 20 = 0#32 := wAt_atReset_rotIndex b n p l
  rcases abandonCommand_cases hrun with h | h
  case inl =>
    exact ⟨_, _, r, (step_resetDuring hport).trans h, hreset, rfl, rfl, fun _ => rfl, fun _ => rfl, rfl, ⟨rfl, rfl⟩,
      ⟨rfl, rfl⟩, rfl, rfl, hcounter .., ⟨v, hrun, hresp⟩, .inl rfl⟩
  case inr =>
    exact ⟨_, _, r, (step_resetDuring hport).trans h, hreset, rfl, rfl, fun _ => rfl, fun _ => rfl, rfl, ⟨rfl, rfl⟩,
      ⟨rfl, rfl⟩, rfl, rfl, hcounter .., ⟨v, hrun, hresp⟩, .inr hresp⟩

end Sys2Proof.Proofs
end

section
/-! The recurrence as a map (40_recurrence_scalar.md R107), and the round table in closed form (42_unrolled_vector.md R142,
R143). -/

namespace Sys2Proof.Proofs

open Sys2Proof.Machine

/-! A word equal to itself shifted is equal to itself shifted out: xor with a shift is injective. -/

theorem eq_zero_of_eq_shiftRight_seven {x : Word} (h : x = x >>> 7) : x = 0#32 := by
  have hx : x.toNat = x.toNat / 2 ^ 7 := by
    simpa only [BitVec.toNat_ushiftRight, Nat.shiftRight_eq_div_pow] using congrArg BitVec.toNat h
  apply BitVec.eq_of_toNat_eq
  simp only [BitVec.toNat_ofNat]
  omega

theorem eq_zero_of_eq_shiftLeft {x : Word} {n : Nat} (hn : 0 < n) (h : x = x <<< n) : x = 0#32 := by
  have iterated (m : Nat) : x = x <<< (m * n) := by
    induction m with
    | zero => simp
    | succ m ih =>
      calc x
        _ = x <<< n := h
        _ = (x <<< (m * n)) <<< n := by rw [← ih]
        _ = x <<< ((m + 1) * n) := by rw [← BitVec.shiftLeft_add, Nat.succ_mul]
  rw [iterated 32]
  exact BitVec.shiftLeft_eq_zero (Nat.le_mul_of_pos_right 32 hn)

/-- Xor of equal results: the difference of the arguments goes through a shift alone. -/
theorem injective_xor_shift {shift : Word → Word} (hxor : ∀ x y, shift (x ^^^ y) = shift x ^^^ shift y)
    (hzero : ∀ x, x = shift x → x = 0#32) : Function.Injective fun x => x ^^^ shift x := by
  intro x y h
  refine BitVec.xor_eq_zero_iff.mp (hzero _ ?_)
  have h' : x ^^^ shift x = y ^^^ shift y := h
  rw [hxor, ← BitVec.xor_eq_zero_iff]
  calc (x ^^^ y) ^^^ (shift x ^^^ shift y)
    _ = (x ^^^ shift x) ^^^ (y ^^^ shift y) := by ac_rfl
    _ = 0#32 := by rw [h', BitVec.xor_self]

theorem bijective_xor_shiftLeft {n : Nat} (hn : 0 < n) : Function.Bijective fun x : Word => x ^^^ x <<< n :=
  Finite.injective_iff_bijective.mp (injective_xor_shift (fun _ _ => BitVec.shiftLeft_xor_distrib ..)
    fun _ => eq_zero_of_eq_shiftLeft hn)

theorem bijective_xsT : Function.Bijective xsT :=
  Finite.injective_iff_bijective.mp (injective_xor_shift (fun _ _ => BitVec.ushiftRight_xor_distrib ..)
    fun _ => eq_zero_of_eq_shiftRight_seven)

theorem bijective_xor_const (c : Word) : Function.Bijective fun x : Word => x ^^^ c :=
  Function.Involutive.bijective fun x => by rw [BitVec.xor_assoc, BitVec.xor_self, BitVec.xor_zero]

/-- In each argument `XS_V` is xor with a shift, then xor with a constant. -/
theorem bijective_xsV_left (t : Word) : Function.Bijective fun v => xsV v t :=
  (bijective_xor_const (t ^^^ t <<< 13)).comp (bijective_xor_shiftLeft (n := 6) (by decide))

theorem bijective_xsV_right (v : Word) : Function.Bijective (xsV v) := by
  have hcomm : xsV v = (fun x => x ^^^ (v ^^^ v <<< 6)) ∘ fun t : Word => t ^^^ t <<< 13 :=
    funext fun _ => BitVec.xor_comm ..
  rw [hcomm]
  exact (bijective_xor_const _).comp (bijective_xor_shiftLeft (by decide))

/-- The old `s4` is the new `s3`, so the old `s0` can be found from the new `s4`. -/
theorem bijective_laneStep_window : Function.Bijective fun a => (laneStep a).1 := by
  constructor
  case left =>
    rintro ⟨a0, a1, a2, a3, a4⟩ ⟨b0, b1, b2, b3, b4⟩ h
    simp only [laneStep_window, Window.mk.injEq] at h
    obtain ⟨rfl, rfl, rfl, rfl, hnew⟩ := h
    rw [bijective_xsT.injective ((bijective_xsV_right a4).injective hnew)]
  case right =>
    rintro ⟨n0, n1, n2, n3, n4⟩
    obtain ⟨t, rfl⟩ := (bijective_xsV_right n3).surjective n4
    obtain ⟨a0, rfl⟩ := bijective_xsT.surjective t
    exact ⟨⟨a0, n0, n1, n2, n3⟩, rfl⟩

/-! The output. -/

theorem getLsbD_zero_xsOut (y v : Word) : (xsOut y v).getLsbD 0 = v.getLsbD 0 := by
  have odd_product : (2 * y.toNat + 1) * v.toNat % 2 = v.toNat % 2 := by simp [Nat.mul_mod]
  have hnat : (xsOut y v).toNat = (2 * y.toNat + 1) * v.toNat % 2 ^ 32 := by
    rw [toNat_xsOut, Nat.mod_mul_mod, two_mul]
  rw [← BitVec.testBit_toNat, ← BitVec.testBit_toNat, Nat.testBit_zero, Nat.testBit_zero, hnat,
    Nat.mod_mod_of_dvd _ (by decide), odd_product]

theorem laneSteps_zeroWindow (n : Nat) :
    laneSteps n ⟨0#32, 0#32, 0#32, 0#32, 0#32⟩ = ⟨0#32, 0#32, 0#32, 0#32, 0#32⟩ := by
  have fixed : (laneStep ⟨0#32, 0#32, 0#32, 0#32, 0#32⟩).1 = ⟨0#32, 0#32, 0#32, 0#32, 0#32⟩ := by decide
  induction n with
  | zero => rfl
  | succ n ih => rw [laneSteps_succ', ih, fixed]

/-- Settles O18: xor with a shift is injective, hence a bijection on the words, and the output is an odd multiple of the
new `s4`. -/
theorem recurrenceIsBijective : Obligations.RecurrenceIsBijective := by
  unfold Obligations.RecurrenceIsBijective
  refine ⟨fun n => ⟨laneSteps_zeroWindow n, ?zeroOutput⟩, bijective_xsT, bijective_xsV_left, bijective_laneStep_window,
    ?outputZero, fun _ => getLsbD_zero_xsOut ..⟩
  case zeroOutput =>
    rw [laneOutput, laneSteps_zeroWindow]
    decide
  case outputZero =>
    intro a h
    have hnew : xsV a.s4 (xsT a.s0) = 0#32 := h
    rw [laneStep_output, hnew, xsOut, BitVec.mul_zero]

/-! The round table. -/

/-- Settles O9: `roundTable_closed` in word indices. -/
theorem roundTableClosedForm : Obligations.RoundTableClosedForm := by
  unfold Obligations.RoundTableClosedForm
  intro k
  have hs4 : (k.number + 4).val = (k.number.val + 4) % 5 := Fin.val_add k.number 4
  have hs1 : (k.number + 2).val = (k.number.val + 2) % 5 := Fin.val_add k.number 2
  simp only [roundTable_closed, hs4, hs1, true_and]
  omega

/-- Settles O10: four slots after the next slot is the slot itself (`slot_cycle`). -/
theorem roundDependencyChain : Obligations.RoundDependencyChain := by
  unfold Obligations.RoundDependencyChain
  refine ⟨fun k => ?chain, rfl, rfl⟩
  case chain =>
    obtain ⟨-, -, -, hfour, -⟩ := slot_cycle k.number
    rw [roundTable_closed, roundTable_closed, number_next, hfour]

end Sys2Proof.Proofs
end

section
/-! The two views of a word and of a vector (20_memory.md R56), and the assembler's examples (30_encoding.md R83). -/

namespace Sys2Proof.Proofs

theorem getLsbD_wordByte (v : Word) (n : Fin 4) {b : Nat} (hb : b < 8) :
    (wordByte v n).getLsbD b = v.getLsbD (8 * n.val + b) := by
  rw [wordByte, BitVec.getLsbD_extractLsb', decide_eq_true hb, Bool.true_and]

/-- The four bytes stand next to each other, and together they are the whole word. -/
theorem wordOfBytes_wordByte (v : Word) : wordOfBytes (wordByte v) = v := by
  have bytes : wordOfBytes (wordByte v) =
      (v.extractLsb' 24 8 ++ v.extractLsb' 16 8 : BitVec 16) ++ v.extractLsb' 8 8 ++ v.extractLsb' 0 8 := rfl
  rw [bytes, BitVec.extractLsb'_append_extractLsb'_eq_extractLsb' (start₂ := 24) (start₁ := 16) (len₁ := 8) rfl,
    BitVec.extractLsb'_append_extractLsb'_eq_extractLsb' (start₂ := 16) (start₁ := 8) (len₁ := 8) rfl,
    BitVec.extractLsb'_append_extractLsb'_eq_extractLsb' (start₂ := 8) (start₁ := 0) (len₁ := 8) rfl]
  exact BitVec.extractLsb'_eq_self

/-- Each lane below the one read is skipped. -/
theorem toBits_extractLsb' (x : Lanes) (j : Lane) : x.toBits.extractLsb' (32 * j.val) 32 = x.lane j := by
  have skip {w : Nat} (n : Nat) (hi : BitVec w) (lo : Word) :
      (hi ++ lo).extractLsb' (32 * (n + 1)) 32 = hi.extractLsb' (32 * n) 32 :=
    BitVec.extractLsb'_append_eq_of_le (by omega)
  match j with
  | 0 => exact BitVec.extractLsb'_append_eq_right
  | 1 => exact (skip 0 ..).trans BitVec.extractLsb'_append_eq_right
  | 2 => exact (skip 1 ..).trans ((skip 0 ..).trans BitVec.extractLsb'_append_eq_right)
  | 3 => exact (skip 2 ..).trans ((skip 1 ..).trans BitVec.extractLsb'_append_eq_left)

/-- Settles O59: a vector has the lanes of its view, and so is the vector of its view. -/
theorem littleEndianViews : Obligations.LittleEndianViews := by
  unfold Obligations.LittleEndianViews
  refine ⟨fun v n _ hb => getLsbD_wordByte v n hb, wordOfBytes_wordByte, toBits_extractLsb', fun x => ?roundTrip⟩
  case roundTrip =>
    simp only [Lanes.ofBits, toBits_extractLsb']
    rfl

/-- Settles O60: each of the six lines is assembled by evaluation. -/
theorem assemblerExamples : Obligations.AssemblerExamples := by
  unfold Obligations.AssemblerExamples
  refine ⟨by decide, by decide, by decide, by decide, by decide, by decide⟩

end Sys2Proof.Proofs
end

section
/-! The step commands against the recurrence and against each other (40_recurrence_scalar.md R109, 41_ring_vector.md R125 to
R128, 42_unrolled_vector.md R147 and R148, 43_phase_dispatch.md R170): each lane's window takes one lane step at a time. -/

namespace Sys2Proof.Proofs

open Sys2Proof.Machine Sys2Proof.Safety Sys2Proof.Claims

/-- What every execution of a command keeps for one more time holds before the last of `n + 1` executions. -/
theorem execAll_replicate_last {i : Instr} {P : Nat → State → Prop}
    (step_P : ∀ n s, P n s → ∃ t, exec i s = .next t ∧ P (n + 1) t) {s : State} (h0 : P 0 s) (n : Nat) :
    ∃ u t, P n u ∧ exec i u = .next t ∧ execAll (List.replicate (n + 1) i) s = .next t := by
  obtain ⟨u, hrun, hP⟩ := execAll_replicate step_P h0 n
  obtain ⟨t, hlast, -⟩ := step_P n u hP
  refine ⟨u, t, hP, hlast, ?_⟩
  rw [List.replicate_succ', execAll_append hrun, execAll_cons hlast]
  rfl

/-! `STEP.S`. -/

/-- No fault is recorded, and the scalar window is `a`. -/
structure ScalarAt (a : Window) (s : State) : Prop where
  clear : s.err = false
  window : s.scalarWindow = a

theorem exec_stepS {s : State} (he : s.err = false) : exec .stepS s = .next (effect .stepS s) :=
  exec_of_executes (i := .stepS) he

theorem ScalarAt.effect_stepS {a : Window} {s : State} (h : ScalarAt a s) : ScalarAt (laneStep a).1 (effect .stepS s) := by
  obtain ⟨he, rfl⟩ := h
  exact ⟨he, scalarWindow_effect_stepS s⟩

/-- Settles O19: the window before the last `STEP.S` has taken `n` lane steps, and the last takes one more and answers its
output. -/
theorem stepSIsScalarStream : Obligations.StepSIsScalarStream := by
  unfold Obligations.StepSIsScalarStream
  intro s n he
  have step_scalar : ∀ n u, ScalarAt (laneSteps n s.scalarWindow) u →
      ∃ t, exec .stepS u = .next t ∧ ScalarAt (laneSteps (n + 1) s.scalarWindow) t := by
    intro n u h
    rw [laneSteps_succ']
    exact ⟨_, exec_stepS h.clear, h.effect_stepS⟩
  obtain ⟨u, t, hu, hlast, hrun⟩ := execAll_replicate_last step_scalar ⟨he, rfl⟩ n
  obtain rfl := Host.Outcome.next.inj ((exec_stepS hu.clear).symm.trans hlast)
  have houtput : outAt (effect .stepS u) 0 = laneOutput n s.scalarWindow := by
    rw [outAt_zero_effect_stepS, hu.window, laneOutput]
  refine ⟨_, hrun, ?window, houtput, ?response, hu.effect_stepS.clear⟩
  case window => rw [laneSteps_succ', hu.effect_stepS.window]
  case response => rw [effect_stepS_responses, List.getLast?_concat, houtput]

/-! `STEP.U`. -/

/-- No fault is recorded, and each lane's window, read from slot 0, is the one given. -/
structure UnrolledAt (a : Lane → Window) (s : State) : Prop where
  clear : s.err = false
  windows : ∀ j, s.window 0 j = a j

theorem UnrolledAt.fiveRounds {a : Lane → Window} {s : State} (h : UnrolledAt a s) :
    UnrolledAt (fun j => laneSteps 5 (a j)) ((fiveRounds s).respond false 0#32) := by
  refine ⟨?clear, fun j => ?windows⟩
  case clear => rw [respond_err, fiveRounds_err, h.clear]
  case windows => rw [window_respond, (fiveRounds_lanes s j).1, h.windows]

/-- Settles O20: before the last `STEP.U` each lane has taken `5n` lane steps, and the last takes five more, whose outputs
are the five slices. -/
theorem stepUIsFiveLaneSteps : Obligations.StepUIsFiveLaneSteps := by
  unfold Obligations.StepUIsFiveLaneSteps
  intro s n he
  have step_unrolled : ∀ n u, UnrolledAt (fun j => laneSteps (5 * n) (s.window 0 j)) u →
      ∃ t, exec .stepU u = .next t ∧ UnrolledAt (fun j => laneSteps (5 * (n + 1)) (s.window 0 j)) t := by
    intro n u h
    simp only [Nat.mul_succ, laneSteps_add]
    exact ⟨_, exec_stepU h.clear, h.fiveRounds⟩
  obtain ⟨u, t, hu, hlast, hrun⟩ := execAll_replicate_last step_unrolled ⟨he, fun _ => rfl⟩ n
  obtain rfl := Host.Outcome.next.inj ((exec_stepU hu.clear).symm.trans hlast)
  refine ⟨_, hrun, fun j => ⟨?window, fun k => ?output⟩⟩
  case window => rw [Nat.mul_succ, laneSteps_add, hu.fiveRounds.windows]
  case output => rw [readOut_respond, (fiveRounds_lanes u j).2, hu.windows, laneOutput_add]

/-! `STEP.R`. -/

/-- A ring step from counter `4q` is the round whose number is the next slot, with the counter written first. -/
theorem exec_stepR_round {s : State} {q : Slot} (he : s.err = false) (hq : s.readW rotIndex = slotCounter q) :
    exec .stepR s =
      .next ((roundOp (Phase.ofNumber (q + 1)) 0 (s.writeW rotIndex (slotCounter (q + 1)))).respond false 0#32) := by
  rw [roundOp, ← ring_row_eq_roundTable, ← effect_stepR_row hq]
  exact exec_of_executes (i := .stepR) ⟨he, (counterLegal_iff _).mpr ⟨q, hq⟩⟩

theorem sameData_writeW_rot (s : State) (v : Word) : SameData s (s.writeW rotIndex v) :=
  ⟨fun _ hk => readW_writeW_other hk v, fun _ => rfl⟩

/-- A counter of the list is that of a slot. -/
theorem ring_counter_slot {c : Nat} (hc : c ∈ [0, 4, 8, 12, 16]) : ∃ q : Slot, c = 4 * q.val := by
  simp only [List.mem_cons, List.not_mem_nil, or_false] at hc
  exact ⟨⟨c / 4, by omega⟩, by simp only; omega⟩

/-- Settles O23: the round does not see the counter written before it (`SameData.round`). -/
theorem stepRIsOneRound : Obligations.StepRIsOneRound := by
  unfold Obligations.StepRIsOneRound
  intro s c he hc hrot
  obtain ⟨q, rfl⟩ := ring_counter_slot hc
  have hslot : Fin.ofNat 5 (4 * q.val / 4 + 1) = q + 1 := by
    apply Fin.ext
    rw [Fin.val_add, Fin.val_ofNat, Nat.mul_div_cancel_left _ (by decide)]
    rfl
  have hnext : BitVec.ofNat 32 ((4 * q.val + 4) % 20) = slotCounter (q + 1) := by
    have hval : (q + 1).val = (q.val + 1) % 5 := Fin.val_add q 1
    rw [slotCounter, hval]
    congr 1
    omega
  have hround := (sameData_writeW_rot s (slotCounter (q + 1))).round (Phase.ofNumber (q + 1)) 0
  rw [hslot, hnext]
  exact ⟨_, _, exec_stepR_round he hrot, rfl, hround.words, hround.outputs, by
    rw [readW_respond, readW_round_rot, readW_writeW_same]⟩

/-- No fault is recorded, the counter is that of slot `q`, and each lane's window, read from the slot after it, is the one
given: the layout R128 asks for. -/
structure RingAt (q : Slot) (a : Lane → Window) (s : State) : Prop where
  clear : s.err = false
  counter : s.readW rotIndex = slotCounter q
  windows : ∀ j, s.window (q + 1) j = a j

/-- A ring step takes one lane step in each lane, puts its outputs into slice 0, and keeps the layout. -/
theorem RingAt.exec_stepR {q : Slot} {a : Lane → Window} {s : State} (h : RingAt q a s) :
    ∃ t, exec .stepR s = .next t ∧ RingAt (q + 1) (fun j => (laneStep (a j)).1) t ∧
      ∀ j, t.readOut (outIndex 0 j) = (laneStep (a j)).2 := by
  have hwindow (j : Lane) : (s.writeW rotIndex (slotCounter (q + 1))).window (Phase.ofNumber (q + 1)).number j = a j := by
    rw [number_ofNumber, ← h.windows, window_eq_of_data (sameData_writeW_rot s _).words]
  refine ⟨_, exec_stepR_round h.clear h.counter, ⟨h.clear, ?counter, fun j => ?window⟩, fun j => ?output⟩
  case counter => rw [readW_respond, readW_round_rot, readW_writeW_same]
  case window =>
    have hround := window_round (s.writeW rotIndex (slotCounter (q + 1))) (Phase.ofNumber (q + 1)) 0 j
    rwa [hwindow, number_ofNumber] at hround
  case output => rw [readOut_respond, output_round, hwindow]

/-- After `n` ring steps the counter has advanced by `n` slots, and each lane has taken `n` lane steps; one more puts out
the next. -/
theorem execAll_stepR {q : Slot} {a : Lane → Window} {s : State} (h : RingAt q a s) (n : Nat) :
    ∃ t, execAll (List.replicate (n + 1) .stepR) s = .next t ∧
      RingAt ((· + 1)^[n + 1] q) (fun j => laneSteps (n + 1) (a j)) t ∧
      ∀ j, t.readOut (outIndex 0 j) = laneOutput n (a j) := by
  have step_ring : ∀ n u, RingAt ((· + 1)^[n] q) (fun j => laneSteps n (a j)) u →
      ∃ t, exec .stepR u = .next t ∧ RingAt ((· + 1)^[n + 1] q) (fun j => laneSteps (n + 1) (a j)) t := by
    intro n u h
    obtain ⟨t, hstep, hring, -⟩ := h.exec_stepR
    simp only [Function.iterate_succ_apply', laneSteps_succ']
    exact ⟨t, hstep, hring⟩
  obtain ⟨u, t, hu, hlast, hrun⟩ := execAll_replicate_last step_ring h n
  obtain ⟨t', hstep, hring, hout⟩ := hu.exec_stepR
  obtain rfl := Host.Outcome.next.inj (hstep.symm.trans hlast)
  simp only [Function.iterate_succ_apply', laneSteps_succ']
  exact ⟨t', hrun, hring, hout⟩

theorem five_slots_on (q : Slot) : (· + 1)^[5] q = q := by
  revert q
  decide

/-- Settles O24: from counter 16 the layout is that of `STEP.U`, so both sides are the same lane steps. -/
theorem fiveStepREqualStepU : Obligations.FiveStepREqualStepU := by
  unfold Obligations.FiveStepREqualStepU
  intro s he hrot
  have hring : RingAt 4 (fun j => s.window 0 j) s := ⟨he, hrot, fun _ => rfl⟩
  refine ⟨_, exec_stepU he, fun n => ?slice, ?data⟩
  case slice =>
    obtain ⟨t, hrun, -, hout⟩ := execAll_stepR hring n.val
    exact ⟨t, hrun, fun j => by rw [hout, readOut_respond, (fiveRounds_lanes s j).2]⟩
  case data =>
    obtain ⟨t, hrun, hring', -⟩ := execAll_stepR hring 4
    rw [five_slots_on] at hring'
    refine ⟨t, hrun, readW_of_windows (q := 0) fun j => ?_, hring'.counter⟩
    rw [window_respond, (fiveRounds_lanes s j).1]
    exact hring'.windows j

theorem wAt_slot_add (s : State) (q m : Slot) (j : Lane) :
    wAt s ((4 * q.val + 4 * m.val) % 20 + j.val) = s.readW (wIndex (q + m) j) := by
  have hval : (q + m).val = (q.val + m.val) % 5 := Fin.val_add q m
  rw [← wAt_slot, hval]
  congr 1
  omega

/-- The window read from the slot after the counter's has the layout of R128. -/
theorem window_ring_layout (s : State) (q : Slot) (j : Lane) :
    s.window (q + 1) j =
      ⟨wAt s ((4 * q.val + 4) % 20 + j.val), wAt s ((4 * q.val + 8) % 20 + j.val),
        wAt s ((4 * q.val + 12) % 20 + j.val), wAt s ((4 * q.val + 16) % 20 + j.val),
        wAt s ((4 * q.val + 20) % 20 + j.val)⟩ := by
  obtain ⟨e2, e3, e4, e5, -⟩ := slot_cycle q
  have hlast : wAt s ((4 * q.val + 20) % 20 + j.val) = s.readW (wIndex q j) := by
    rw [Nat.add_mod_right, Nat.mod_eq_of_lt (by omega), wAt_slot]
  rw [hlast, State.window, e2, e3, e4, e5]
  simp only [← wAt_slot_add]
  rfl

/-- Settles O25: the windows R128 lays out are those `execAll_stepR` follows. -/
theorem stepRIsScalarStreamForEver : Obligations.StepRIsScalarStreamForEver := by
  unfold Obligations.StepRIsScalarStreamForEver
  intro s c n he hc hrot
  obtain ⟨q, rfl⟩ := ring_counter_slot hc
  obtain ⟨t, hrun, -, hout⟩ := execAll_stepR ⟨he, hrot, fun _ => rfl⟩ n
  refine ⟨t, hrun, fun j a h0 h1 h2 h3 h4 => ?_⟩
  rw [outAt_slice_zero, hout, window_ring_layout, h0, h1, h2, h3, h4]

theorem toNat_slotCounter_succ (q : Slot) : (slotCounter (q + 1)).toNat = ((slotCounter q).toNat + 4) % 20 := by
  revert q
  decide

theorem toNat_slotCounter_bounds (q : Slot) : (slotCounter q).toNat < 20 ∧ (slotCounter q).toNat % 4 = 0 := by
  revert q
  decide

/-- Settles O26: the counter moves to the next slot's, and five slots on is the slot itself. -/
theorem ringCounterCycle : Obligations.RingCounterCycle := by
  unfold Obligations.RingCounterCycle
  intro s he hlegal
  obtain ⟨q, hq⟩ := (counterLegal_iff _).mp hlegal
  have hring : RingAt q (s.window (q + 1)) s := ⟨he, hq, fun _ => rfl⟩
  constructor
  case left =>
    obtain ⟨t, hstep, hnext, -⟩ := hring.exec_stepR
    refine ⟨t, hstep, ?_⟩
    rw [hnext.counter, hq]
    exact ⟨toNat_slotCounter_succ q, toNat_slotCounter_bounds (q + 1)⟩
  case right =>
    obtain ⟨t, hrun, hcycle, -⟩ := execAll_stepR hring 4
    rw [five_slots_on] at hcycle
    exact ⟨t, hrun, hcycle.counter.trans hq.symm⟩

/-! `STEP.P`. -/

/-- The rounds of a sequence of phases take one lane step each in every lane. -/
theorem window_phaseRounds (ds : List Slot) (k : Phase) (s : State) (j : Lane) :
    (phaseRounds ds k s).window (Phase.next^[ds.length] k).number j = laneSteps ds.length (s.window k.number j) := by
  induction ds generalizing k s with
  | nil => rfl
  | cons d ds ih =>
    rw [phaseRounds, List.length_cons, Function.iterate_succ_apply, ih, number_next, window_round, laneSteps_succ]

theorem phaseRounds_append (ds ds' : List Slot) (k : Phase) (s : State) :
    phaseRounds (ds ++ ds') k s = phaseRounds ds' (Phase.next^[ds.length] k) (phaseRounds ds k s) := by
  induction ds generalizing k s with
  | nil => rfl
  | cons d ds ih => rw [List.cons_append, phaseRounds, ih, List.length_cons, Function.iterate_succ_apply, phaseRounds]

/-- The last of them puts its output into the slice it names. -/
theorem readOut_phaseRounds_last (ds : List Slot) (d : Slot) (k : Phase) (s : State) (j : Lane) :
    (phaseRounds (ds ++ [d]) k s).readOut (outIndex d j) = laneOutput ds.length (s.window k.number j) := by
  rw [phaseRounds_append, phaseRounds, phaseRounds, output_round, window_phaseRounds, laneOutput]

/-- A sequence of `STEP.P` leaves `W` and `OUT` as the rounds of its phases do, and the cursor advanced by its length. -/
theorem execAll_stepPTo {ds : List Slot} {r s : State} {k : Phase} (he : s.err = false) (hk : s.ph = some k)
    (hw : s.w = r.w) (hout : s.out = r.out) :
    ∃ t, execAll (ds.map stepPTo) s = .next t ∧ t.ph = some (Phase.next^[ds.length] k) ∧
      t.w = (phaseRounds ds k r).w ∧ t.out = (phaseRounds ds k r).out := by
  induction ds generalizing r s k with
  | nil => exact ⟨s, rfl, hk, hw, hout⟩
  | cons d ds ih =>
    have hrun : exec (stepPTo d) s = .next (((roundOp k d s).setPh k.next).respond false 0#32) := exec_stepP he hk d
    rw [List.map_cons, execAll_cons hrun]
    exact ih (k := k.next) he rfl (round_w_congr hw k d) (round_out_congr hw hout k d)

theorem val_number_iterate_next (n : Nat) (k : Phase) : (Phase.next^[n] k).number.val = (k.number.val + n) % 5 := by
  induction n with
  | zero => exact (Nat.mod_eq_of_lt k.number.isLt).symm
  | succ n ih => rw [Function.iterate_succ_apply', val_number_next, ih, Nat.mod_add_mod, Nat.add_assoc]

/-- Settles O21: the rounds of the five phases are the five rounds of `STEP.U`, and five advances return the cursor to 0. -/
theorem fivePhasesEqualStepU : Obligations.FivePhasesEqualStepU := by
  unfold Obligations.FivePhasesEqualStepU
  intro s he hk
  obtain ⟨t, hrun, hph, hw, hout⟩ := execAll_stepPTo (ds := [0, 1, 2, 3, 4]) he hk rfl rfl
  rw [phaseRounds_five] at hw hout
  exact ⟨t, _, hrun, exec_stepU he, readW_congr (hw.trans (respond_w ..).symm),
    readOut_congr (hout.trans (respond_out ..).symm), hph⟩

/-- Settles O27: what the rounds of the sequence do to the windows is `window_phaseRounds`, and the last puts out what
`readOut_phaseRounds_last` says. -/
theorem stepPIsScalarStreamForEver : Obligations.StepPIsScalarStreamForEver := by
  unfold Obligations.StepPIsScalarStreamForEver
  intro s k ds d he hk
  obtain ⟨t, hrun, hph, hw, hout⟩ := execAll_stepPTo (ds := ds ++ [d]) he hk rfl rfl
  have hlen : (ds ++ [d]).length = ds.length + 1 := List.length_append
  have hwindow := window_phaseRounds (ds ++ [d]) k s
  rw [hlen] at hph hwindow
  refine ⟨t, _, hrun, hph, val_number_iterate_next .., fun j => ⟨?window, ?output⟩⟩
  case window => rw [window_congr (fun _ _ => readW_congr hw _), hwindow]
  case output => rw [readOut_congr hout, readOut_phaseRounds_last]

/-- Settles O28: five lane steps from slot 0 end at slot 0 again, where the cursor is, and the phase takes the sixth. -/
theorem stepUAtPhaseZeroContinuesStreams : Obligations.StepUAtPhaseZeroContinuesStreams := by
  unfold Obligations.StepUAtPhaseZeroContinuesStreams
  intro s d he hk
  have hstep := exec_stepU he
  have hunrolled : UnrolledAt (fun j => laneSteps 5 (s.window 0 j)) ((fiveRounds s).respond false 0#32) :=
    UnrolledAt.fiveRounds ⟨he, fun _ => rfl⟩
  have hcursor : ((fiveRounds s).respond false 0#32).ph = some .phase0 := by rw [respond_ph, fiveRounds_ph, hk]
  generalize (fiveRounds s).respond false 0#32 = u at hstep hunrolled hcursor
  obtain ⟨t, hrun, hph, hw, hout⟩ := execAll_stepPTo (ds := [d]) hunrolled.clear hcursor rfl rfl
  refine ⟨t, (execAll_cons hstep).trans hrun, hph, fun j => ⟨?window, ?output⟩⟩
  case window =>
    calc t.window 1 j
      _ = (phaseRounds [d] .phase0 u).window 1 j := window_congr (fun _ _ => readW_congr hw _) 1 j
      _ = laneSteps 1 (u.window 0 j) := window_phaseRounds [d] .phase0 u j
      _ = laneSteps 6 (s.window 0 j) := by rw [hunrolled.windows, ← laneSteps_add]
  case output =>
    calc t.readOut (outIndex d j)
      _ = (phaseRounds [d] .phase0 u).readOut (outIndex d j) := readOut_congr hout _
      _ = laneOutput 0 (u.window 0 j) := readOut_phaseRounds_last [] d .phase0 u j
      _ = laneOutput 5 (s.window 0 j) := by rw [hunrolled.windows, ← laneOutput_add]

end Sys2Proof.Proofs
end

section
/-! What commands read and write (10_state.md R30, 41_ring_vector.md R126, 42_unrolled_vector.md R144,
70_reset_and_hazards.md R234): lanes, write sets, read sets, and writes in either order. -/

namespace Sys2Proof.Proofs

open Sys2Proof.Machine Sys2Proof.Safety Sys2Proof.Claims

/-! Lanes. -/

section
variable {j : Lane} {s s' : State} (h : laneAgrees j s s')
include h

/-- A vector step reads and writes lane `j` of its slots and of its slice for lane `j`. -/
theorem laneAgrees_vectorStep (row : RoundRow) (d : Slot) :
    laneAgrees j (vectorStep s row d) (vectorStep s' row d) := by
  obtain ⟨hw, hout⟩ := h
  constructor
  · intro q
    simp only [readW_vectorStep, stepWord, hw]
  · intro d'
    simp only [readOut_vectorStep, stepWord, hw, hout]

theorem laneAgrees_round (k : Phase) (d : Slot) : laneAgrees j (roundOp k d s) (roundOp k d s') :=
  laneAgrees_vectorStep h (roundTable k) d

theorem laneAgrees_respond (e : Bool) (d : Word) : laneAgrees j (s.respond e d) (s'.respond e d) := h

theorem laneAgrees_setPh (k : Phase) : laneAgrees j (s.setPh k) (s'.setPh k) := h

theorem laneAgrees_writeW_rot (v : Word) : laneAgrees j (s.writeW rotIndex v) (s'.writeW rotIndex v) := by
  obtain ⟨hw, hout⟩ := h
  refine ⟨fun q => ?_, hout⟩
  rw [readW_slot_writeW_rot, readW_slot_writeW_rot, hw]

end

theorem laneAgrees_fiveRounds {j : Lane} {s s' : State} (h : laneAgrees j s s') :
    laneAgrees j (fiveRounds s) (fiveRounds s') := by
  have h0 := laneAgrees_round h .phase0 0
  have h1 := laneAgrees_round h0 .phase1 1
  have h2 := laneAgrees_round h1 .phase2 2
  have h3 := laneAgrees_round h2 .phase3 3
  exact laneAgrees_round h3 .phase4 4

/-- Stated once, so that no proof unfolds the rounds to see the response after them. -/
theorem effect_stepU (s : State) : effect .stepU s = (fiveRounds s).respond false 0#32 := rfl

/-- Settles O29: the counter or the cursor fixes the slots, and the rest is vector steps. -/
theorem lanesAreIndependent : Obligations.LanesAreIndependent := by
  unfold Obligations.LanesAreIndependent
  intro i s s' j hi hex hex' hrot hph hlane
  refine ⟨_, _, exec_of_executes hex, exec_of_executes hex', ?_⟩
  rcases hi with rfl | rfl | ⟨d, rfl⟩
  case inl =>
    obtain ⟨-, hc⟩ := hex
    obtain ⟨q, hq⟩ := (counterLegal_iff _).mp hc
    rw [effect_stepR_row hq, effect_stepR_row (hrot.trans hq)]
    exact laneAgrees_respond (laneAgrees_vectorStep (laneAgrees_writeW_rot hlane _) _ 0) false 0#32
  case inr.inl =>
    rw [effect_stepU, effect_stepU]
    exact laneAgrees_respond (laneAgrees_fiveRounds hlane) false 0#32
  case inr.inr =>
    obtain ⟨hp, -, hd⟩ := hex
    obtain ⟨k, hk⟩ := Option.isSome_iff_exists.mp hp
    rw [effect_stepP hk hd, effect_stepP (hph.trans hk) hd]
    exact laneAgrees_respond (laneAgrees_setPh (laneAgrees_round hlane k _) k.next) false 0#32

/-! Write sets in `W`. -/

theorem mem_slotWords_iff {k : Fin 21} {q : Slot} : k ∈ slotWords q ↔ ∃ j, k = wIndex q j := by
  simp [slotWords, Fin.exists_fin_succ]

theorem mem_dataWords_iff {k : Fin 21} : k ∈ dataWords ↔ k ≠ rotIndex := by
  revert k
  decide

theorem mem_scalarWords_iff {k : Fin 21} : k ∈ ([0, 1, 2, 3, 4] : List (Fin 21)) ↔ k.val ≤ 4 := by
  revert k
  decide

theorem writesW_stepR {s : State} {q : Slot} (hq : s.readW rotIndex = slotCounter q) :
    writesW .stepR s = rotIndex :: slotWords (q + 1) := by
  simp [writesW, hq]

theorem writesW_stepP {s : State} {k : Phase} (hk : s.ph = some k) (d : BitVec 8) :
    writesW (.stepP d) s = slotWords (roundTable k).stOff := by
  simp [writesW, hk, roundTable_closed]

theorem readW_vectorStep_of_not_mem {k : Fin 21} {row : RoundRow} (hk : k ∉ slotWords row.stOff) (s : State) (d : Slot) :
    (vectorStep s row d).readW k = s.readW k := by
  rcases wIndex_cases k with rfl | ⟨q, j, rfl⟩
  · exact readW_vectorStep_rot s row d
  · have hne : q ≠ row.stOff := by
      rintro rfl
      exact hk (mem_slotWords_iff.mpr ⟨j, rfl⟩)
    rw [readW_vectorStep, if_neg hne]

/-- The frame in `W`: no word beside those of the command's row. -/
theorem readW_effect_of_not_mem {i : Instr} {s : State} (h : executes i s) {k : Fin 21} (hk : k ∉ writesW i s) :
    (effect i s).readW k = s.readW k := by
  cases i with
  | wrs idx data =>
    obtain ⟨-, hi⟩ := h
    rw [writesW, wOperand_of_le hi] at hk
    have hne : k ≠ ⟨idx.toNat, Nat.lt_succ_of_le hi⟩ := mt List.mem_singleton.mpr hk
    simp only [effect, wOperand_of_le hi, readW_respond, readW_writeW_other hne]
  | rds | rdo | rdst => rw [effect_of_read rfl h, readW_respond]
  | stepS => exact readW_effect_stepS_of_gt (Nat.lt_of_not_le (mt mem_scalarWords_iff.mpr hk)) s
  | stepR =>
    obtain ⟨-, hc⟩ := h
    obtain ⟨q, hq⟩ := (counterLegal_iff _).mp hc
    rw [writesW_stepR hq] at hk
    obtain ⟨hrot, hslot⟩ := List.ne_and_not_mem_of_not_mem_cons hk
    rw [effect_stepR_row hq, readW_respond, readW_vectorStep_of_not_mem hslot, readW_writeW_other hrot]
  | stepU =>
    obtain rfl : k = rotIndex := not_not.mp (mt mem_dataWords_iff.mpr hk)
    rw [effect_stepU, readW_respond, readW_fiveRounds_rot]
  | stepP d =>
    obtain ⟨hp, -, hd⟩ := h
    obtain ⟨p, hp⟩ := Option.isSome_iff_exists.mp hp
    rw [writesW_stepP hp] at hk
    rw [effect_stepP hp hd, readW_respond, readW_setPh, roundOp, readW_vectorStep_of_not_mem hk]

/-- Settles O30: the state is `effect i s`, with its frames in `W`, in `OUT` and beside them. -/
theorem commandsKeepToWriteSets : Obligations.CommandsKeepToWriteSets := by
  unfold Obligations.CommandsKeepToWriteSets
  intro i s h
  obtain ⟨herr, hcause, hport, hresets, -⟩ := effect_frame i s
  exact ⟨_, exec_of_executes h, fun _ hk => readW_effect_of_not_mem h hk, fun _ hk => readOut_effect_of_not_mem h hk,
    fun hP => effect_ph_of_not_stepP hP s, ⟨herr, hcause⟩, ⟨hport, hresets⟩⟩

/-! Read sets. -/

section
variable {s s' : State} {row : RoundRow} (ht : ∀ j, s'.readW (wIndex row.tOff j) = s.readW (wIndex row.tOff j))
  (hs4 : ∀ j, s'.readW (wIndex row.s4Off j) = s.readW (wIndex row.s4Off j))
include ht hs4

/-- What a vector step stores comes from two slots. -/
theorem readW_vectorStep_of_mem {k : Fin 21} (hk : k ∈ slotWords row.stOff) (d : Slot) :
    (vectorStep s' row d).readW k = (vectorStep s row d).readW k := by
  obtain ⟨j, rfl⟩ := mem_slotWords_iff.mp hk
  simp only [readW_vectorStep, if_true, stepWord, ht, hs4]

/-- What it puts out comes from those two and a third. -/
theorem readOut_vectorStep_of_slots (hs1 : ∀ j, s'.readW (wIndex row.s1Off j) = s.readW (wIndex row.s1Off j)) {k : Fin 20}
    {d : Slot} (hk : k ∈ sliceWords d) : (vectorStep s' row d).readOut k = (vectorStep s row d).readOut k := by
  obtain ⟨j, rfl⟩ := mem_sliceWords_iff.mp hk
  simp only [readOut_vectorStep, if_true, stepWord, ht, hs4, hs1]

end

/-- What the command has in common in the two states: the words it writes, their new values, its answer, and for `STEP.P`
the new cursor. -/
structure SameResult (i : Instr) (s s' : State) : Prop where
  writes : writesW i s' = writesW i s
  words : ∀ k ∈ writesW i s, (effect i s').readW k = (effect i s).readW k
  outputs : ∀ k ∈ writesOut i, (effect i s').readOut k = (effect i s).readOut k
  answer : answerData i s' = answerData i s
  cursor : isStepP i = true → (effect i s').ph = (effect i s).ph

section
variable {s s' : State}

theorem sameResult_wrs {idx : BitVec 8} (hi : idx.toNat ≤ 20) (data : Word) : SameResult (.wrs idx data) s s' := by
  refine ⟨rfl, fun k hk => ?words, nofun, rfl, nofun⟩
  case words =>
    rw [writesW, wOperand_of_le hi] at hk
    obtain rfl := List.mem_singleton.mp hk
    simp only [effect, wOperand_of_le hi, readW_respond, readW_writeW_same]

/-- A read writes no word, so only its answer is left. -/
theorem sameResult_read {i : Instr} (hread : stateChanging i = false) (hanswer : answerData i s' = answerData i s) :
    SameResult i s s' := by
  cases i with
  | rds | rdo | rdst => exact ⟨rfl, nofun, nofun, hanswer, nofun⟩
  | wrs | stepS | stepR | stepU | stepP => cases hread

theorem scalarWindow_eq_iff :
    s'.scalarWindow = s.scalarWindow ↔ ∀ k ∈ ([0, 1, 2, 3, 4] : List (Fin 21)), s'.readW k = s.readW k := by
  simp [State.scalarWindow]

theorem sameResult_stepS (hwindow : s'.scalarWindow = s.scalarWindow) : SameResult .stepS s s' := by
  refine ⟨rfl, fun k hk => ?words, fun k hk => ?outputs, by rw [answerData, answerData, hwindow], nofun⟩
  case words =>
    refine scalarWindow_eq_iff.mp ?_ k hk
    rw [scalarWindow_effect_stepS, scalarWindow_effect_stepS, hwindow]
  case outputs =>
    obtain rfl : k = 0 := List.mem_singleton.mp hk
    simp only [effect, readOut_respond, readOut_writeOut_same, hwindow]

theorem sameResult_stepR {q : Slot} (hq : s.readW rotIndex = slotCounter q) (hq' : s'.readW rotIndex = slotCounter q)
    (h : ∀ q' ∈ [q + 1, q, q + 3], ∀ j, s'.readW (wIndex q' j) = s.readW (wIndex q' j)) : SameResult .stepR s s' := by
  have hslot : ∀ q' ∈ [q + 1, q, q + 3], ∀ j,
      (s'.writeW rotIndex (slotCounter (q + 1))).readW (wIndex q' j) =
        (s.writeW rotIndex (slotCounter (q + 1))).readW (wIndex q' j) := by
    intro q' hq' j
    rw [readW_slot_writeW_rot, readW_slot_writeW_rot, h q' hq']
  simp only [List.forall_mem_cons] at hslot
  obtain ⟨ht, hs4, hs1, -⟩ := hslot
  refine ⟨by rw [writesW_stepR hq, writesW_stepR hq'], fun k hk => ?words, fun k hk => ?outputs, rfl, nofun⟩
  case words =>
    rw [writesW_stepR hq] at hk
    rcases List.mem_cons.mp hk with rfl | hk
    · rw [readW_effect_stepR_rot hq, readW_effect_stepR_rot hq']
    · rw [effect_stepR_row hq, effect_stepR_row hq', readW_respond, readW_respond]
      exact readW_vectorStep_of_mem (row := ⟨q + 1, q, q + 3, q + 1⟩) ht hs4 hk 0
  case outputs =>
    rw [effect_stepR_row hq, effect_stepR_row hq', readOut_respond, readOut_respond]
    exact readOut_vectorStep_of_slots (row := ⟨q + 1, q, q + 3, q + 1⟩) ht hs4 hs1 hk

theorem sameResult_stepU (h : ∀ k, k ≠ rotIndex → s'.readW k = s.readW k) : SameResult .stepU s s' := by
  refine ⟨rfl, fun k hk => ?words, fun k _ => ?outputs, rfl, nofun⟩
  case words =>
    rw [effect_stepU, effect_stepU, readW_respond, readW_respond]
    exact readW_fiveRounds_of_data h k (mem_dataWords_iff.mp hk)
  case outputs =>
    rw [effect_stepU, effect_stepU, readOut_respond, readOut_respond]
    exact readOut_fiveRounds_of_data h k

theorem sameResult_stepP {d : BitVec 8} {k : Phase} (hd : d.toNat ≤ 4) (hk : s.ph = some k) (hk' : s'.ph = some k)
    (h : ∀ q ∈ [(roundTable k).tOff, (roundTable k).s4Off, (roundTable k).s1Off], ∀ j,
      s'.readW (wIndex q j) = s.readW (wIndex q j)) : SameResult (.stepP d) s s' := by
  simp only [List.forall_mem_cons] at h
  obtain ⟨ht, hs4, hs1, -⟩ := h
  refine ⟨by rw [writesW_stepP hk, writesW_stepP hk'], fun i hi => ?words, fun i hi => ?outputs, rfl, fun _ => ?cursor⟩
  case words =>
    rw [writesW_stepP hk] at hi
    simp only [effect_stepP hk hd, effect_stepP hk' hd, readW_respond, readW_setPh, roundOp]
    exact readW_vectorStep_of_mem ht hs4 hi _
  case outputs =>
    rw [writesOut_stepP_of_le hd] at hi
    simp only [effect_stepP hk hd, effect_stepP hk' hd, readOut_respond, readOut_setPh, roundOp]
    exact readOut_vectorStep_of_slots ht hs4 hs1 hi
  case cursor => rw [effect_stepP_ph hd hk, effect_stepP_ph hd hk']

/-- The states agree on the slots of a list when they agree on the slots' words. -/
theorem readW_slots_eq {qs : List Slot} (h : ∀ k ∈ qs.flatMap slotWords, s'.readW k = s.readW k) :
    ∀ q ∈ qs, ∀ j, s'.readW (wIndex q j) = s.readW (wIndex q j) := fun q hq j =>
  h _ (List.mem_flatMap.mpr ⟨q, hq, mem_slotWords_iff.mpr ⟨j, rfl⟩⟩)

/-- The read set of a command decides its result. -/
theorem sameResult_of_agreeOnReads {i : Instr} (h : executes i s) (hagree : agreeOnReads i s s') : SameResult i s s' := by
  obtain ⟨hw, hrest⟩ := hagree
  cases i with
  | wrs idx data =>
    obtain ⟨-, hi⟩ := h
    exact sameResult_wrs hi data
  | rds idx =>
    have hi : idx.toNat ≤ 20 := h
    have hlt : idx.toNat < 21 := Nat.lt_succ_of_le hi
    refine sameResult_read rfl ?_
    rw [answerData, answerData, wAt_eq_readW s' hlt, wAt_eq_readW s hlt]
    exact hw _ (by simp [readsW, wOperand_of_le hi])
  | rdo idx => exact sameResult_read rfl hrest
  | rdst =>
    obtain ⟨herr, hcause, hph⟩ := hrest
    refine sameResult_read rfl ?_
    simp only [answerData, statusWord, hasPhase_eq, herr, hcause, hph]
  | stepS =>
    exact sameResult_stepS (scalarWindow_eq_iff.mpr hw)
  | stepR =>
    obtain ⟨-, hc⟩ := h
    obtain ⟨q, hq⟩ := (counterLegal_iff _).mp hc
    have hreads : readsW .stepR s = rotIndex :: [q + 1, q, q + 3].flatMap slotWords := by
      simp [readsW, hq]
    rw [hreads] at hw
    obtain ⟨hrot, hslots⟩ := List.forall_mem_cons.mp hw
    exact sameResult_stepR hq (hrot.trans hq) (readW_slots_eq hslots)
  | stepU => exact sameResult_stepU fun k hk => hw k (mem_dataWords_iff.mpr hk)
  | stepP d =>
    obtain ⟨hp, -, hd⟩ := h
    obtain ⟨k, hk⟩ := Option.isSome_iff_exists.mp hp
    have hreads : readsW (.stepP d) s =
        [(roundTable k).tOff, (roundTable k).s4Off, (roundTable k).s1Off].flatMap slotWords := by
      simp [readsW, hk, roundTable_closed]
    rw [hreads] at hw
    exact sameResult_stepP hd hk (hrest.trans hk) (readW_slots_eq hw)

end

/-- Settles O31: the two next states are the command's effects, which agree as `SameResult` says. -/
theorem resultsDependOnReadSetsOnly : Obligations.ResultsDependOnReadSetsOnly := by
  unfold Obligations.ResultsDependOnReadSetsOnly
  intro i s s' hex hex' hagree
  obtain ⟨hwrites, hwords, houtputs, hanswer, hcursor⟩ := sameResult_of_agreeOnReads hex hagree
  refine ⟨_, _, answerData i s, exec_of_executes hex, exec_of_executes hex', effect_responses hex, ?answer', hwrites,
    hwords, houtputs, hcursor⟩
  case answer' =>
    rw [answered, effect_responses hex', hanswer]

/-! Writes in either order. -/

theorem execAll_two_wrs {s : State} {i j : BitVec 8} (he : s.err = false) (hi : i.toNat < 21) (hj : j.toNat < 21)
    (a b : Word) :
    execAll [.wrs i a, .wrs j b] s = .next (writtenEach [(⟨i.toNat, hi⟩, a), (⟨j.toNat, hj⟩, b)] s) := by
  simpa only [wrsEach, List.map, BitVec.ofNat_toNat, BitVec.setWidth_eq] using
    execAll_wrsEach he [(⟨i.toNat, hi⟩, a), (⟨j.toNat, hj⟩, b)]

theorem writtenEach_swap {i j : Fin 21} (h : i ≠ j) (a b : Word) (s : State) :
    writtenEach [(i, a), (j, b)] s = writtenEach [(j, b), (i, a)] s := by
  simp only [writtenEach, List.foldl, Vector.set_comm _ _ (Fin.val_ne_of_ne h)]
  rfl

/-- Settles O34: the two writes are to different entries of `W`, and their responses are the same. -/
theorem seedWritesCommute : Obligations.SeedWritesCommute := by
  unfold Obligations.SeedWritesCommute
  intro s i j a b he hi hj hij
  have hi' : i.toNat < 21 := Nat.lt_succ_of_le hi
  have hj' : j.toNat < 21 := Nat.lt_succ_of_le hj
  have hne : (⟨i.toNat, hi'⟩ : Fin 21) ≠ ⟨j.toNat, hj'⟩ := fun h => hij (BitVec.eq_of_toNat_eq (Fin.mk.inj h))
  refine ⟨_, execAll_two_wrs he hi' hj' a b, ?swapped, ?first, ?second⟩
  case swapped => rw [execAll_two_wrs he hj' hi', writtenEach_swap hne]
  case first =>
    rw [wAt_eq_readW _ hi', writtenEach_swap hne, writtenEach_cons, writtenEach_cons, writtenEach_nil, readW_respond,
      readW_writeW_same]
  case second =>
    rw [wAt_eq_readW _ hj', writtenEach_cons, writtenEach_cons, writtenEach_nil, readW_respond, readW_writeW_same]

end Sys2Proof.Proofs
end
